-- ==== Sys2Proof/Word.lean ====
section
/-! DEFINITION. Word.lean: the one width of the machine. Every register, operand, immediate and branch target is a byte
(00_scope.md R6, R7; 20_memory.md R29). -/

namespace Sys2Proof

/-- A byte, 0..255, unsigned, arithmetic mod 256 (00_scope.md R7, R8). -/
abbrev Byte := BitVec 8

end Sys2Proof
end

