-- ==== Sys2Proof/Config.lean ====
section
/-! DEFINITION. Config.lean: the names the spec fixes (operations, modes, fault kinds, the three-byte record) and the types of its
OPEN parameters (OPCODE_MAP, RESET_REGS, the host schedule). The first two parameters' reference VALUES stand in Decode.lean and Machine/Reset.lean. -/

namespace Sys2Proof

/-- The fourteen operations (30_encoding.md R45). -/
inductive Operation where
  | mov | add | sub | lsh | rsh | and | or | xor | cmp | br | be | bne | bg | bl
  deriving DecidableEq, Repr

/-- Every operation once, in the order of the opcode table. -/
def Operation.all : List Operation :=
  [.mov, .add, .sub, .lsh, .rsh, .and, .or, .xor, .cmp, .br, .be, .bne, .bg, .bl]

/-- The four classes of operations (30_encoding.md R45, 40_step.md R57). -/
inductive OpClass where
  | alu | compare | branch | move
  deriving DecidableEq, Repr

/-- The class of each operation (the table of 30_encoding.md R45). -/
def Operation.opClass : Operation → OpClass
  | .mov => .move
  | .add => .alu
  | .sub => .alu
  | .lsh => .alu
  | .rsh => .alu
  | .and => .alu
  | .or => .alu
  | .xor => .alu
  | .cmp => .compare
  | .br => .branch
  | .be => .branch
  | .bne => .branch
  | .bg => .branch
  | .bl => .branch

/-- The addressing mode of the right operand (30_encoding.md R41). -/
inductive Mode where
  | registerOperand
  | immediateOperand
  deriving DecidableEq, Repr

/-- The core's two faults (60_exceptions.md R92). They are values of the run status (10_state.md R22). -/
inductive FaultKind where
  /-- The opcode byte, its mode bit masked off, matches no operation (30_encoding.md R49). -/
  | invalidOpcode
  /-- A register address outside the register map was read or written (10_state.md R13, R15). -/
  | invalidRegisterAddress
  deriving DecidableEq, Repr

/-- One record of the program store: opcode, operand_left, operand_right (20_memory.md R26, R28; 30_encoding.md R38). -/
structure Record where
  opcode : Byte
  left   : Byte
  right  : Byte
  deriving DecidableEq, Repr

/-- The OPEN parameter OPCODE_MAP: the family code of each operation (30_encoding.md R46). -/
abbrev OpcodeMap := Operation → Byte

/-- The OPEN parameter RESET_REGS: the reset value of every register but PC (70_reset_and_hazards.md R110). -/
structure ResetRegs where
  gp : Vector Byte 8
  bt : Vector Byte 2
  dp : Vector Byte 4
  cr : Byte
  deriving DecidableEq, Repr

/-- What the host may do between two steps (60_exceptions.md R108, R109). -/
inductive HostAction where
  /-- The button pad writes both BT registers, each 0 (false) or 1 (true) (R107). -/
  | poll (pressed0 pressed1 : Bool)
  /-- The display reads DP[0..3] (R106). -/
  | render
  /-- The reset event: every cell to its reset state, for some RESET_REGS (40_step.md R55, 70_reset_and_hazards.md R110). -/
  | reset (regs : ResetRegs)
  deriving DecidableEq, Repr

/-- A free value: the host's turn number n of a schedule that is left open, the OPEN host schedule of 60_exceptions.md R108 (log entry
15). It has no body, so no proof can use what it is. -/
opaque freeHostTurn : Nat → List HostAction

/-- The program store holds at most this many records (20_memory.md R26, 92_eei_decisions.md D13). -/
def maxRecords : Nat := 256

end Sys2Proof
end

