-- ==== Sys2Proof/Syntax.lean ====
section
/-! DEFINITION. Syntax.lean: the instructions, one constructor per row of spec/opcode_table.json. -/

namespace Sys2Proof

/-- A decoded instruction. `l` is operand_left (a register address, or a branch's target `t`); `r` is operand_right as a register
address (register mode), `k` operand_right as an immediate (immediate mode). A branch keeps its target alone: bit 0 of its opcode and
its right byte are never looked at (30_encoding.md R42, 42_compare_branch.md R85). -/
inductive Instr where
  | movReg (l r : Byte)
  | movImm (l k : Byte)
  | addReg (l r : Byte)
  | addImm (l k : Byte)
  | subReg (l r : Byte)
  | subImm (l k : Byte)
  | lshReg (l r : Byte)
  | lshImm (l k : Byte)
  | rshReg (l r : Byte)
  | rshImm (l k : Byte)
  | andReg (l r : Byte)
  | andImm (l k : Byte)
  | orReg (l r : Byte)
  | orImm (l k : Byte)
  | xorReg (l r : Byte)
  | xorImm (l k : Byte)
  | cmpReg (l r : Byte)
  | cmpImm (l k : Byte)
  | br (t : Byte)
  | be (t : Byte)
  | bne (t : Byte)
  | bg (t : Byte)
  | bl (t : Byte)
  deriving DecidableEq, Repr

/-- The operation an instruction performs. -/
def Instr.op : Instr → Operation
  | .movReg _ _ => .mov
  | .movImm _ _ => .mov
  | .addReg _ _ => .add
  | .addImm _ _ => .add
  | .subReg _ _ => .sub
  | .subImm _ _ => .sub
  | .lshReg _ _ => .lsh
  | .lshImm _ _ => .lsh
  | .rshReg _ _ => .rsh
  | .rshImm _ _ => .rsh
  | .andReg _ _ => .and
  | .andImm _ _ => .and
  | .orReg _ _ => .or
  | .orImm _ _ => .or
  | .xorReg _ _ => .xor
  | .xorImm _ _ => .xor
  | .cmpReg _ _ => .cmp
  | .cmpImm _ _ => .cmp
  | .br _ => .br
  | .be _ => .be
  | .bne _ => .bne
  | .bg _ => .bg
  | .bl _ => .bl

/-- Whether the instruction is a branch (30_encoding.md R42, R45). -/
def Instr.isBranch (i : Instr) : Bool := i.op.opClass == .branch

/-- operand_left of an instruction. -/
def Instr.left : Instr → Byte
  | .movReg l _ => l
  | .movImm l _ => l
  | .addReg l _ => l
  | .addImm l _ => l
  | .subReg l _ => l
  | .subImm l _ => l
  | .lshReg l _ => l
  | .lshImm l _ => l
  | .rshReg l _ => l
  | .rshImm l _ => l
  | .andReg l _ => l
  | .andImm l _ => l
  | .orReg l _ => l
  | .orImm l _ => l
  | .xorReg l _ => l
  | .xorImm l _ => l
  | .cmpReg l _ => l
  | .cmpImm l _ => l
  | .br t => t
  | .be t => t
  | .bne t => t
  | .bg t => t
  | .bl t => t

/-- The addressing mode and the right byte of an instruction; none for a branch, which has no right operand (30_encoding.md R42). -/
def Instr.rightOperand : Instr → Option (Mode × Byte)
  | .movReg _ r => some (.registerOperand, r)
  | .movImm _ k => some (.immediateOperand, k)
  | .addReg _ r => some (.registerOperand, r)
  | .addImm _ k => some (.immediateOperand, k)
  | .subReg _ r => some (.registerOperand, r)
  | .subImm _ k => some (.immediateOperand, k)
  | .lshReg _ r => some (.registerOperand, r)
  | .lshImm _ k => some (.immediateOperand, k)
  | .rshReg _ r => some (.registerOperand, r)
  | .rshImm _ k => some (.immediateOperand, k)
  | .andReg _ r => some (.registerOperand, r)
  | .andImm _ k => some (.immediateOperand, k)
  | .orReg _ r => some (.registerOperand, r)
  | .orImm _ k => some (.immediateOperand, k)
  | .xorReg _ r => some (.registerOperand, r)
  | .xorImm _ k => some (.immediateOperand, k)
  | .cmpReg _ r => some (.registerOperand, r)
  | .cmpImm _ k => some (.immediateOperand, k)
  | .br _ => none
  | .be _ => none
  | .bne _ => none
  | .bg _ => none
  | .bl _ => none

/-- The register address a register-mode instruction loads its right operand from (30_encoding.md R44). -/
def Instr.rightAddr? (i : Instr) : Option Byte :=
  match i.rightOperand with
  | some (.registerOperand, r) => some r
  | some (.immediateOperand, _) => none
  | none => none

end Sys2Proof
end

