-- ==== Sys2Proof/WellFormed.lean ====
section
/-! DEFINITION. WellFormed.lean: what the spec demands of the parameters a model takes, and of an assembled line.
An `Instr` needs no check of its own: its operands are bytes, and within a legal record the operand bytes have no reserved values
(30_encoding.md R50), a register address outside the map being an execution fault and no ill-formed instruction (R48, R50). -/

namespace Sys2Proof

/-- The constraints K1 to K5 on an admissible OPCODE_MAP (30_encoding.md R46). -/
structure OpcodeMap.Admissible (m : OpcodeMap) : Prop where
  /-- K1: bit 0 of every assigned code is clear. -/
  modeBitClear : ∀ op, m op &&& 0x01 = 0x00
  /-- K2: no two operations share a code. -/
  injective : ∀ op op', m op = m op' → op = op'
  /-- K3: every branch has the nibble 0101. -/
  branchNibble : ∀ op, op.opClass = .branch → m op >>> 4 = 0x05
  /-- K4: no other operation has it. -/
  otherNibble : ∀ op, op.opClass ≠ .branch → m op >>> 4 ≠ 0x05
  /-- K5: no operation has the code 0xFE. -/
  notFE : ∀ op, m op ≠ 0xFE

/-- A program store holds at most 256 records (20_memory.md R26, 92_eei_decisions.md D13). -/
abbrev ProgramStore.wf (image : List Record) : Prop := image.length ≤ maxRecords

end Sys2Proof
end

