-- ==== Sys2Proof/Decode.lean ====
section
/-! DEFINITION. Decode.lean: from bytes to instructions and back, for any OPCODE_MAP, and the reference map the opcode table uses. -/

namespace Sys2Proof

/-- REF_OPCODES, the reference assignment of 30_encoding.md R47, the spec's own choice (92_eei_decisions.md D1; log entry 1). -/
def refOpcodes : OpcodeMap
  | .mov => 0x10
  | .add => 0x20
  | .sub => 0x22
  | .lsh => 0x30
  | .rsh => 0x32
  | .and => 0x40
  | .or => 0x42
  | .xor => 0x44
  | .br => 0x50
  | .be => 0x52
  | .bne => 0x54
  | .bg => 0x56
  | .bl => 0x58
  | .cmp => 0x60

/-- The family code: the opcode with its addressing-mode bit masked off (30_encoding.md R40). -/
def familyOf (opcode : Byte) : Byte := opcode &&& 0xFE

/-- The addressing mode: bit 0 of the raw opcode (30_encoding.md R41). -/
def modeOf (opcode : Byte) : Mode := if opcode.getLsbD 0 then .immediateOperand else .registerOperand

/-- The operation a family code selects, if any (30_encoding.md R48). -/
def findOp (m : OpcodeMap) (fam : Byte) : Option Operation := Operation.all.find? fun op => m op == fam

/-- The decoder of the opcode byte, total (30_encoding.md R48). -/
def decodeOp (m : OpcodeMap) (opcode : Byte) : Except FaultKind (Operation × Mode) :=
  match findOp m (familyOf opcode) with
  | some op => .ok (op, modeOf opcode)
  | none => .error .invalidOpcode

/-- The instruction of an operation, a mode and the two operand bytes; a branch keeps its target alone (30_encoding.md R42 to R44). -/
def makeInstr : Operation → Mode → Byte → Byte → Instr
  | .mov, .registerOperand, l, r => .movReg l r
  | .mov, .immediateOperand, l, k => .movImm l k
  | .add, .registerOperand, l, r => .addReg l r
  | .add, .immediateOperand, l, k => .addImm l k
  | .sub, .registerOperand, l, r => .subReg l r
  | .sub, .immediateOperand, l, k => .subImm l k
  | .lsh, .registerOperand, l, r => .lshReg l r
  | .lsh, .immediateOperand, l, k => .lshImm l k
  | .rsh, .registerOperand, l, r => .rshReg l r
  | .rsh, .immediateOperand, l, k => .rshImm l k
  | .and, .registerOperand, l, r => .andReg l r
  | .and, .immediateOperand, l, k => .andImm l k
  | .or, .registerOperand, l, r => .orReg l r
  | .or, .immediateOperand, l, k => .orImm l k
  | .xor, .registerOperand, l, r => .xorReg l r
  | .xor, .immediateOperand, l, k => .xorImm l k
  | .cmp, .registerOperand, l, r => .cmpReg l r
  | .cmp, .immediateOperand, l, k => .cmpImm l k
  | .br, _, t, _ => .br t
  | .be, _, t, _ => .be t
  | .bne, _, t, _ => .bne t
  | .bg, _, t, _ => .bg t
  | .bl, _, t, _ => .bl t

/-- Decoding one record. It looks at the opcode byte alone to accept or reject (30_encoding.md R48, R49). -/
def decodeRecord (m : OpcodeMap) (rec : Record) : Except FaultKind Instr :=
  match decodeOp m rec.opcode with
  | .ok (op, mode) => .ok (makeInstr op mode rec.left rec.right)
  | .error k => .error k

/-- Why a sequence of bytes gives no instruction. -/
inductive BytesReject where
  /-- Fewer than three bytes: no whole record (20_memory.md R28). -/
  | truncatedRecord
  /-- The opcode byte is illegal (30_encoding.md R49). -/
  | illegalOpcode (opcode : Byte)
  deriving DecidableEq, Repr

/-- Decoding the first record of any sequence of bytes, with the bytes after it (20_memory.md R28, 30_encoding.md R51). -/
def decodeBytes (m : OpcodeMap) : List Byte → Except BytesReject (Instr × List Byte)
  | o :: l :: r :: rest =>
    match decodeRecord m ⟨o, l, r⟩ with
    | .ok i => .ok (i, rest)
    | .error _ => .error (.illegalOpcode o)
  | _ => .error .truncatedRecord

/-- The records of an image: record i is bytes 3i, 3i+1, 3i+2; none when the length is no multiple of 3, an image the excluded loader
refuses (20_memory.md R28, R30). -/
def recordsOfBytes : List Byte → Option (List Record)
  | [] => some []
  | [_] => none
  | [_, _] => none
  | o :: l :: r :: rest => (recordsOfBytes rest).map fun recs => ⟨o, l, r⟩ :: recs

/-- The image bytes of a list of records (20_memory.md R28). -/
def bytesOfRecords : List Record → List Byte
  | [] => []
  | rec :: recs => rec.opcode :: rec.left :: rec.right :: bytesOfRecords recs

/-- The record a number `W` stands for: opcode W[23:16], operand_left W[15:8], operand_right W[7:0] (30_encoding.md R38, the
numbering of spec/opcode_table.json; log entry 9). -/
def recordOfWord (w : Nat) : Record :=
  ⟨BitVec.ofNat 8 (w / 65536), BitVec.ofNat 8 (w / 256), BitVec.ofNat 8 w⟩

/-- The host's question: the instruction of the table word `w`. Every row of the table has the one length of 24 bits (30_encoding.md
R38), so `nbits` selects nothing. -/
def decodeTableWord (_nbits w : Nat) : Option Instr :=
  match decodeRecord refOpcodes (recordOfWord w) with
  | .ok i => some i
  | .error _ => none

/-! The encoder (30_encoding.md R53). -/

/-- The register-mode record of an operation. -/
def encodeReg (m : OpcodeMap) (op : Operation) (l r : Byte) : Record := ⟨m op, l, r⟩

/-- The immediate-mode record of an operation: bit 0 of the opcode set. -/
def encodeImm (m : OpcodeMap) (op : Operation) (l k : Byte) : Record := ⟨m op ||| 0x01, l, k⟩

/-- The record of a branch: bit 0 clear and right byte zero. -/
def encodeBranch (m : OpcodeMap) (op : Operation) (t : Byte) : Record := ⟨m op, t, 0x00⟩

/-- The record of an instruction (30_encoding.md R53). -/
def encode (m : OpcodeMap) : Instr → Record
  | .movReg l r => encodeReg m .mov l r
  | .movImm l k => encodeImm m .mov l k
  | .addReg l r => encodeReg m .add l r
  | .addImm l k => encodeImm m .add l k
  | .subReg l r => encodeReg m .sub l r
  | .subImm l k => encodeImm m .sub l k
  | .lshReg l r => encodeReg m .lsh l r
  | .lshImm l k => encodeImm m .lsh l k
  | .rshReg l r => encodeReg m .rsh l r
  | .rshImm l k => encodeImm m .rsh l k
  | .andReg l r => encodeReg m .and l r
  | .andImm l k => encodeImm m .and l k
  | .orReg l r => encodeReg m .or l r
  | .orImm l k => encodeImm m .or l k
  | .xorReg l r => encodeReg m .xor l r
  | .xorImm l k => encodeImm m .xor l k
  | .cmpReg l r => encodeReg m .cmp l r
  | .cmpImm l k => encodeImm m .cmp l k
  | .br t => encodeBranch m .br t
  | .be t => encodeBranch m .be t
  | .bne t => encodeBranch m .bne t
  | .bg t => encodeBranch m .bg t
  | .bl t => encodeBranch m .bl t

end Sys2Proof
end

