-- ==== Sys2Proof/Machine/Reset.lean ====
section
/-! DEFINITION. Machine/Reset.lean: the values a register holds after reset (70_reset_and_hazards.md R110). -/

namespace Sys2Proof.Machine

/-- PC after reset: the first fetch is record 0 (70_reset_and_hazards.md R110, 92_eei_decisions.md D8; log entry 3). -/
def resetPc : Byte := 0x00

/-- The reference value of RESET_REGS, zero for every cell (70_reset_and_hazards.md R110). The spec leaves the value open:
DESIGN CHOICE, log entry 2. -/
def resetRegsReference : ResetRegs :=
  { gp := Vector.replicate 8 0x00
    bt := Vector.replicate 2 0x00
    dp := Vector.replicate 4 0x00
    cr := 0x00 }

end Sys2Proof.Machine
end

