-- ==== Sys2Proof/Machine/State.lean ====
section
/-! DEFINITION. Machine/State.lean: the state of the machine as plain data, the reasons a step stops, and the state after reset. -/

namespace Sys2Proof.Machine

/-- A storage cell of the register file, the tagged variant of 10_state.md R14. -/
inductive Cell where
  | general (i : Fin 8)
  | button (i : Fin 2)
  | display (i : Fin 4)
  | programCounter
  | conditionResult
  deriving DecidableEq, Repr

/-- The run status (10_state.md R22). -/
inductive Status where
  /-- After reset, until a fault or the end of the run. -/
  | running
  /-- After a step raised a fault; final until reset (60_exceptions.md R96). -/
  | faulted (kind : FaultKind)
  /-- After the fetch sequencer found no record at PC: the run has ended (40_step.md R69). -/
  | ended
  deriving DecidableEq, Repr

/-- The host's turns after the listed ones (log entry 5). -/
inductive HostTail where
  /-- The same turns again and again, for ever; with no turn given, a host that does nothing more. -/
  | repeating (turns : List (List HostAction))
  /-- Turns the model leaves open: the free values `freeHostTurn n`, `freeHostTurn (n + 1)`, and so on for ever (log entry 15). -/
  | free (n : Nat)
  deriving DecidableEq, Repr

/-- The host schedule to come: one list of host actions for each coming step, first `listed`, then without end what `tail` says. An
unending schedule is plain data here; a run under ANY function from steps to host actions is `runUnder` (Machine/Engine.lean). -/
structure HostSchedule where
  listed : List (List HostAction)
  tail   : HostTail
  deriving DecidableEq, Repr

/-- The schedule of a host that does nothing. -/
def HostSchedule.silent : HostSchedule := ⟨[], .repeating []⟩

/-- The state. The first six fields are the core's state (10_state.md R11); `image` and `schedule` are parameters of a run (R12) that
the model carries so that a step can fetch and take its turn of host actions (log entries 4 and 5); `frames` is the model's own record of
what renders handed to the display (log entry 6). -/
@[ext]
structure State where
  /-- GP[0..7] (10_state.md R16). -/
  gp : Vector Byte 8
  /-- BT[0..1] (R17). -/
  bt : Vector Byte 2
  /-- DP[0..3] (R18). -/
  dp : Vector Byte 4
  /-- PC (R19). -/
  pc : Byte
  /-- CR (R20). -/
  cr : Byte
  /-- The run status (R22). -/
  status : Status
  /-- The program store IMAGE; N is its length (20_memory.md R26). -/
  image : List Record
  /-- The host's turns to come: the first goes before the next step, and so on without end (60_exceptions.md R108). -/
  schedule : HostSchedule
  /-- The DP contents of every render so far, oldest first (the model's own field). -/
  frames : List (Vector Byte 4)
  deriving DecidableEq, Repr

/-- Why a run stops in this turn, and the state it stops in, the final state of the run (40_step.md R68, R69). A core fault of the spec is no
member of this type: it is a next state with status Faulted (log entry 7). -/
inductive Fault where
  /-- Raised by `step` in a core whose status is Faulted after the host's turn: no further step happens (40_step.md R56,
  93_implementation_defined.md U12). Safe: the spec has no step there. `final` is the core after the host's turn, which comes before the
  loop looks at the status (40_step.md R68). -/
  | stoppedFaulted (kind : FaultKind) (final : State)
  /-- Raised by `step` in a core whose status is Ended after the host's turn, so only for a state given with that status: no further step
  happens (40_step.md R56, R68). Safe: the spec has no step there. `final` is the core after the host's turn. -/
  | stoppedEnded (final : State)
  /-- Raised by `step` in a running core with no record at PC: the status becomes Ended and the run stops at once (40_step.md R68, R69). Safe:
  the spec's run has no turn after it. `final` is the core with status Ended and every register as it was. -/
  | runEnded (final : State)
  deriving DecidableEq, Repr

/-- Why the model gives a step no meaning. -/
inductive Refusal where
  /-- Raised by an arm of `exec` whose instruction has no meaning yet; no arm raises it. Safe. -/
  | notModelled (mnemonic : String)
  /-- Raised by `step` for a program store of more than 256 records, which a model refuses (20_memory.md R26, 92_eei_decisions.md D13,
  93_implementation_defined.md U8). Safe. -/
  | imageTooLong
  deriving DecidableEq, Repr

/-- The machine after its image is loaded and it is reset (70_reset_and_hazards.md R110, R112), for any RESET_REGS, image and host
schedule. -/
def State.afterReset (regs : ResetRegs) (image : List Record) (schedule : HostSchedule) : State :=
  { gp := regs.gp
    bt := regs.bt
    dp := regs.dp
    pc := resetPc
    cr := regs.cr
    status := .running
    image := image
    schedule := schedule
    frames := [] }

/-- The machine right after reset with the reference RESET_REGS, no program loaded and a host that does nothing
(70_reset_and_hazards.md R110; log entries 2, 4 and 5: the silent host is the model's choice, any schedule being admitted by R108). -/
def State.reset : State := State.afterReset resetRegsReference [] .silent

end Sys2Proof.Machine
end

