-- ==== Sys2Proof/Machine/Ops.lean ====
section
/-! DEFINITION. Machine/Ops.lean: the register file with its address decoder, the PC advance, the commit of a step, raising a fault,
the reset event and the output ports. -/

namespace Sys2Proof.Machine

/-! The literals of the register map (10_state.md R13; normative by 92_eei_decisions.md D23). -/

def gpFirst : Byte := 0x00
def gpLast : Byte := 0x07
def btFirst : Byte := 0x10
def btLast : Byte := 0x11
def dpFirst : Byte := 0x12
def dpLast : Byte := 0x15
def pcAddr : Byte := 0x16
def crAddr : Byte := 0x17

/-- The address decoder (10_state.md R13). -/
def decodeAddr (a : Byte) : Option Cell :=
  if a ≤ gpLast then some (.general (Fin.ofNat 8 (a - gpFirst).toNat))
  else if btFirst ≤ a ∧ a ≤ btLast then some (.button (Fin.ofNat 2 (a - btFirst).toNat))
  else if dpFirst ≤ a ∧ a ≤ dpLast then some (.display (Fin.ofNat 4 (a - dpFirst).toNat))
  else if a = pcAddr then some .programCounter
  else if a = crAddr then some .conditionResult
  else none

/-- The address of a cell: the register map read from right to left (10_state.md R13, R14). -/
def Cell.address : Cell → Byte
  | .general i => gpFirst + BitVec.ofNat 8 i.val
  | .button i => btFirst + BitVec.ofNat 8 i.val
  | .display i => dpFirst + BitVec.ofNat 8 i.val
  | .programCounter => pcAddr
  | .conditionResult => crAddr

/-- The value a cell holds. -/
def State.value (s : State) : Cell → Byte
  | .general i => s.gp[i]
  | .button i => s.bt[i]
  | .display i => s.dp[i]
  | .programCounter => s.pc
  | .conditionResult => s.cr

/-- The state with one cell's value replaced; nothing else changes (10_state.md R15). -/
def State.setValue (s : State) : Cell → Byte → State
  | .general i, v => { s with gp := s.gp.set i v }
  | .button i, v => { s with bt := s.bt.set i v }
  | .display i, v => { s with dp := s.dp.set i v }
  | .programCounter, v => { s with pc := v }
  | .conditionResult, v => { s with cr := v }

/-- `Load(a)` (10_state.md R15). -/
def State.load (s : State) (a : Byte) : Except FaultKind Byte :=
  match decodeAddr a with
  | some c => .ok (s.value c)
  | none => .error .invalidRegisterAddress

/-- `Store(a, v)` (10_state.md R15). A store to BT or DP is like any other (R17, R18). -/
def State.store (s : State) (a v : Byte) : Except FaultKind State :=
  match decodeAddr a with
  | some c => .ok (s.setValue c v)
  | none => .error .invalidRegisterAddress

/-- The PC advance, the first change of a step's working copy; 255 wraps to 0 (40_step.md R57, R62, R63). -/
def State.advancePc (s : State) : State := { s with pc := s.pc + 1 }

/-- Raising a fault: the status records its kind, and no register changes, PC included (40_step.md R57, R60; 60_exceptions.md R94, R96).
This is the core's one exception entry, and no instruction returns from it: a fault saves nothing and transfers control nowhere (R98),
and only the reset event clears it. -/
def State.raise (s : State) (k : FaultKind) : State := { s with status := .faulted k }

/-- The end of a step that began in `s`: commit the working copy, or raise the fault in `s` itself, all or nothing (40_step.md R57, R60). -/
def State.commit (s : State) : Except FaultKind State → Host.Outcome State Fault Refusal
  | .ok w => .next w
  | .error k => .next (s.raise k)

/-- The reset event: every cell of the core to its reset state (40_step.md R55, 70_reset_and_hazards.md R110). The image, the host's
coming actions and what was shown are no cells of the core. -/
def State.resetCells (s : State) (regs : ResetRegs) : State :=
  { s with gp := regs.gp, bt := regs.bt, dp := regs.dp, pc := resetPc, cr := regs.cr, status := .running }

/-! The output ports (40_step.md R55). -/

/-- The `pc` port: the PC register, after a step the step's `new_pc` (40_step.md R55, R67). -/
def State.pcOut (s : State) : Byte := s.pc

/-- The `dp` port (40_step.md R55, 60_exceptions.md R106). -/
def State.dpOut (s : State) : Vector Byte 4 := s.dp

/-- The numeric code of a fault on the `fault` port (60_exceptions.md R93). -/
def faultCode : FaultKind → BitVec 2
  | .invalidOpcode => 1
  | .invalidRegisterAddress => 2

/-- The `fault` port (40_step.md R55, 60_exceptions.md R93). -/
def State.faultOut (s : State) : BitVec 2 :=
  match s.status with
  | .running => 0
  | .faulted k => faultCode k
  | .ended => 0

end Sys2Proof.Machine
end

