-- ==== Sys2Proof/Machine/Operands.lean ====
section
/-! DEFINITION. Machine/Operands.lean: the two forms of the right operand. The left operand is a plain `Load` or `Store`, a branch's
target a plain byte (30_encoding.md R43). -/

namespace Sys2Proof.Machine

/-- `resolve(m, r)`: a register read, or the byte itself with no extension and no decoding as an address (30_encoding.md R44). -/
def State.resolve (w : State) : Mode → Byte → Except FaultKind Byte
  | .registerOperand, r => w.load r
  | .immediateOperand, k => .ok k

end Sys2Proof.Machine
end

