-- ==== Sys2Proof/Machine/Alu.lean ====
section
/-! DEFINITION. Machine/Alu.lean: the seven ALU operations (41_alu.md). -/

namespace Sys2Proof.Machine

/-! The computations `f(a, b)`. -/

/-- ADD: (a + b) mod 256 (41_alu.md R75). -/
def aluAdd (a b : Byte) : Byte := a + b

/-- SUB: (a - b) mod 256, the left operand the minuend (41_alu.md R76). -/
def aluSub (a b : Byte) : Byte := a - b

/-- LSH: zero for amounts of 8 and more, else the bits shifted out of bit 7 are lost (41_alu.md R74, R77). -/
def aluLsh (a b : Byte) : Byte := if b.toNat ≥ 8 then 0 else a <<< b.toNat

/-- RSH: zero for amounts of 8 and more, else zeros enter at bit 7 (41_alu.md R74, R78). -/
def aluRsh (a b : Byte) : Byte := if b.toNat ≥ 8 then 0 else a >>> b.toNat

/-- AND (41_alu.md R79). -/
def aluAnd (a b : Byte) : Byte := a &&& b

/-- OR (41_alu.md R80). -/
def aluOr (a b : Byte) : Byte := a ||| b

/-- XOR (41_alu.md R81). -/
def aluXor (a b : Byte) : Byte := a ^^^ b

/-- The step of an ALU operation: advance PC, load left, resolve right, store the result at left, commit (40_step.md R57, class ALU;
41_alu.md R70). -/
def aluStep (f : Byte → Byte → Byte) (m : Mode) (l r : Byte) (s : State) : Host.Outcome State Fault Refusal :=
  let w := s.advancePc
  s.commit do
    let a ← w.load l
    let b ← w.resolve m r
    w.store l (f a b)

/-! One meaning per row of the opcode table. -/

/-- ADD, register mode (41_alu.md R75). -/
def execAddReg (l r : Byte) (s : State) : Host.Outcome State Fault Refusal := aluStep aluAdd .registerOperand l r s

/-- ADD, immediate mode (41_alu.md R75). -/
def execAddImm (l k : Byte) (s : State) : Host.Outcome State Fault Refusal := aluStep aluAdd .immediateOperand l k s

/-- SUB, register mode (41_alu.md R76). -/
def execSubReg (l r : Byte) (s : State) : Host.Outcome State Fault Refusal := aluStep aluSub .registerOperand l r s

/-- SUB, immediate mode (41_alu.md R76). -/
def execSubImm (l k : Byte) (s : State) : Host.Outcome State Fault Refusal := aluStep aluSub .immediateOperand l k s

/-- LSH, register mode (41_alu.md R77). -/
def execLshReg (l r : Byte) (s : State) : Host.Outcome State Fault Refusal := aluStep aluLsh .registerOperand l r s

/-- LSH, immediate mode (41_alu.md R77). -/
def execLshImm (l k : Byte) (s : State) : Host.Outcome State Fault Refusal := aluStep aluLsh .immediateOperand l k s

/-- RSH, register mode (41_alu.md R78). -/
def execRshReg (l r : Byte) (s : State) : Host.Outcome State Fault Refusal := aluStep aluRsh .registerOperand l r s

/-- RSH, immediate mode (41_alu.md R78). -/
def execRshImm (l k : Byte) (s : State) : Host.Outcome State Fault Refusal := aluStep aluRsh .immediateOperand l k s

/-- AND, register mode (41_alu.md R79). -/
def execAndReg (l r : Byte) (s : State) : Host.Outcome State Fault Refusal := aluStep aluAnd .registerOperand l r s

/-- AND, immediate mode (41_alu.md R79). -/
def execAndImm (l k : Byte) (s : State) : Host.Outcome State Fault Refusal := aluStep aluAnd .immediateOperand l k s

/-- OR, register mode (41_alu.md R80). -/
def execOrReg (l r : Byte) (s : State) : Host.Outcome State Fault Refusal := aluStep aluOr .registerOperand l r s

/-- OR, immediate mode (41_alu.md R80). -/
def execOrImm (l k : Byte) (s : State) : Host.Outcome State Fault Refusal := aluStep aluOr .immediateOperand l k s

/-- XOR, register mode (41_alu.md R81). -/
def execXorReg (l r : Byte) (s : State) : Host.Outcome State Fault Refusal := aluStep aluXor .registerOperand l r s

/-- XOR, immediate mode (41_alu.md R81). -/
def execXorImm (l k : Byte) (s : State) : Host.Outcome State Fault Refusal := aluStep aluXor .immediateOperand l k s

end Sys2Proof.Machine
end

