-- ==== Sys2Proof/Machine/Flags.lean ====
section
/-! DEFINITION. Machine/Flags.lean: the compare/branch unit. CR is the core's only condition state: the difference CMP stores there,
and the five predicates that read it. -/

namespace Sys2Proof.Machine

/-- The difference CMP stores into CR, mod 256 (42_compare_branch.md R82). -/
def compareDiff (a b : Byte) : Byte := a - b

/-- BR: always (42_compare_branch.md R83). -/
def predBR (_cr : Byte) : Bool := true

/-- BE: CR == 0 (42_compare_branch.md R83). -/
def predBE (cr : Byte) : Bool := cr == 0

/-- BNE: CR != 0 (42_compare_branch.md R83). -/
def predBNE (cr : Byte) : Bool := cr != 0

/-- BG: CR < 128, unsigned: bit 7 clear, so it holds for CR = 0 too (42_compare_branch.md R83, R84; 90_conflicts.md C4). -/
def predBG (cr : Byte) : Bool := decide (cr.toNat < 128)

/-- BL: CR > 127, unsigned: bit 7 set (42_compare_branch.md R83; 90_conflicts.md C4). -/
def predBL (cr : Byte) : Bool := decide (cr.toNat > 127)

end Sys2Proof.Machine
end

