-- ==== Sys2Proof/Machine/Branch.lean ====
section
/-! DEFINITION. Machine/Branch.lean: the five branches (42_compare_branch.md R85 to R90). -/

namespace Sys2Proof.Machine

/-- The step of a branch: advance PC, then replace it by the target, a raw byte that is never validated, if the predicate over CR holds
(40_step.md R57, class BRANCH; R66; 42_compare_branch.md R85). -/
def branchStep (pred : Byte → Bool) (t : Byte) (s : State) : Host.Outcome State Fault Refusal :=
  let w := s.advancePc
  s.commit (.ok (if pred w.cr then { w with pc := t } else w))

/-- BR (42_compare_branch.md R86). -/
def execBr (t : Byte) (s : State) : Host.Outcome State Fault Refusal := branchStep predBR t s

/-- BE (42_compare_branch.md R87). -/
def execBe (t : Byte) (s : State) : Host.Outcome State Fault Refusal := branchStep predBE t s

/-- BNE (42_compare_branch.md R88). -/
def execBne (t : Byte) (s : State) : Host.Outcome State Fault Refusal := branchStep predBNE t s

/-- BG (42_compare_branch.md R89). -/
def execBg (t : Byte) (s : State) : Host.Outcome State Fault Refusal := branchStep predBG t s

/-- BL (42_compare_branch.md R90). -/
def execBl (t : Byte) (s : State) : Host.Outcome State Fault Refusal := branchStep predBL t s

end Sys2Proof.Machine
end

