-- ==== Sys2Proof/Machine/Compare.lean ====
section
/-! DEFINITION. Machine/Compare.lean: CMP (42_compare_branch.md R82). -/

namespace Sys2Proof.Machine

/-- The step of CMP: advance PC, load left, resolve right, store the difference into CR, commit (40_step.md R57, class CMP). -/
def cmpStep (m : Mode) (l r : Byte) (s : State) : Host.Outcome State Fault Refusal :=
  let w := s.advancePc
  s.commit do
    let a ← w.load l
    let b ← w.resolve m r
    w.store crAddr (compareDiff a b)

/-- CMP, register mode (42_compare_branch.md R82). -/
def execCmpReg (l r : Byte) (s : State) : Host.Outcome State Fault Refusal := cmpStep .registerOperand l r s

/-- CMP, immediate mode (42_compare_branch.md R82). -/
def execCmpImm (l k : Byte) (s : State) : Host.Outcome State Fault Refusal := cmpStep .immediateOperand l k s

end Sys2Proof.Machine
end

