-- ==== Sys2Proof/Machine/Move.lean ====
section
/-! DEFINITION. Machine/Move.lean: MOV (43_move.md R91). -/

namespace Sys2Proof.Machine

/-- The step of MOV: advance PC, resolve right, store it at left, commit; the destination is not read (40_step.md R57, class MOV). -/
def movStep (m : Mode) (l r : Byte) (s : State) : Host.Outcome State Fault Refusal :=
  let w := s.advancePc
  s.commit do
    let b ← w.resolve m r
    w.store l b

/-- MOV, register mode (43_move.md R91). -/
def execMovReg (l r : Byte) (s : State) : Host.Outcome State Fault Refusal := movStep .registerOperand l r s

/-- MOV, immediate mode (43_move.md R91). -/
def execMovImm (l k : Byte) (s : State) : Host.Outcome State Fault Refusal := movStep .immediateOperand l k s

end Sys2Proof.Machine
end

