-- ==== Sys2Proof/Machine/Dispatch.lean ====
section
/-! DEFINITION. Machine/Dispatch.lean: one arm per instruction. -/

namespace Sys2Proof.Machine

/-- The dispatch of a decoded instruction to its meaning (40_step.md R57). -/
def exec (i : Instr) (s : State) : Host.Outcome State Fault Refusal :=
  match i with
  | .movReg l r => Sys2Proof.Machine.execMovReg l r s
  | .movImm l k => Sys2Proof.Machine.execMovImm l k s
  | .addReg l r => Sys2Proof.Machine.execAddReg l r s
  | .addImm l k => Sys2Proof.Machine.execAddImm l k s
  | .subReg l r => Sys2Proof.Machine.execSubReg l r s
  | .subImm l k => Sys2Proof.Machine.execSubImm l k s
  | .lshReg l r => Sys2Proof.Machine.execLshReg l r s
  | .lshImm l k => Sys2Proof.Machine.execLshImm l k s
  | .rshReg l r => Sys2Proof.Machine.execRshReg l r s
  | .rshImm l k => Sys2Proof.Machine.execRshImm l k s
  | .andReg l r => Sys2Proof.Machine.execAndReg l r s
  | .andImm l k => Sys2Proof.Machine.execAndImm l k s
  | .orReg l r => Sys2Proof.Machine.execOrReg l r s
  | .orImm l k => Sys2Proof.Machine.execOrImm l k s
  | .xorReg l r => Sys2Proof.Machine.execXorReg l r s
  | .xorImm l k => Sys2Proof.Machine.execXorImm l k s
  | .cmpReg l r => Sys2Proof.Machine.execCmpReg l r s
  | .cmpImm l k => Sys2Proof.Machine.execCmpImm l k s
  | .br t => Sys2Proof.Machine.execBr t s
  | .be t => Sys2Proof.Machine.execBe t s
  | .bne t => Sys2Proof.Machine.execBne t s
  | .bg t => Sys2Proof.Machine.execBg t s
  | .bl t => Sys2Proof.Machine.execBl t s

end Sys2Proof.Machine
end

