-- ==== Sys2Proof/Machine/Peripherals.lean ====
section
/-! DEFINITION. Machine/Peripherals.lean: what the host does between steps: polls, renders and resets (60_exceptions.md R106 to R109). -/

namespace Sys2Proof.Machine

/-- The input event `bt_write(i, v)`: the button port writes BT[i] (40_step.md R55). -/
def State.btWrite (s : State) (i : Fin 2) (v : Byte) : State := { s with bt := s.bt.set i v }

/-- The byte a button's press state is written as (60_exceptions.md R107). -/
def pressByte (pressed : Bool) : Byte := if pressed then 0x01 else 0x00

/-- A poll writes both BT registers and nothing else (60_exceptions.md R107, R109). -/
def State.poll (s : State) (pressed0 pressed1 : Bool) : State := (s.btWrite 0 (pressByte pressed0)).btWrite 1 (pressByte pressed1)

/-- A render reads the `dp` port; it changes no state of the core (60_exceptions.md R106). The model notes what was read. -/
def State.render (s : State) : State := { s with frames := s.frames ++ [s.dpOut] }

/-- One host action (60_exceptions.md R109). -/
def State.hostAct (s : State) : HostAction → State
  | .poll b0 b1 => s.poll b0 b1
  | .render => s.render
  | .reset regs => s.resetCells regs

/-- Any number of host actions, in their order (60_exceptions.md R108). -/
def State.act (s : State) (actions : List HostAction) : State := actions.foldl State.hostAct s

/-- The next turn of a schedule and the schedule after it. No schedule runs out: after the listed turns a repeating tail starts over, a
silent one goes on with empty turns, and a free one takes the next free turn (log entries 5 and 15). -/
def HostSchedule.next : HostSchedule → List HostAction × HostSchedule
  | ⟨actions :: later, tail⟩ => (actions, ⟨later, tail⟩)
  | ⟨[], .repeating []⟩ => ([], ⟨[], .repeating []⟩)
  | ⟨[], .repeating (actions :: later)⟩ => (actions, ⟨later, .repeating (actions :: later)⟩)
  | ⟨[], .free n⟩ => (freeHostTurn n, ⟨[], .free (n + 1)⟩)

/-- Turn number `n` of a schedule, counted from 0. -/
def HostSchedule.turn : HostSchedule → Nat → List HostAction
  | sch, 0 => sch.next.1
  | sch, n + 1 => sch.next.2.turn n

/-- The actions the host takes before the next step. -/
def State.comingTurn (s : State) : List HostAction := s.schedule.next.1

/-- The host's turn before a step: the actions the schedule has there, in their order (40_step.md R68, 60_exceptions.md R108). Holding the
schedule in State, and how it goes on after its listed turns, is the model's choice (DESIGN CHOICE, log entry 5): a silent tail is a host
that does nothing more, a repeating one a host that acts for ever, a free one any host at all. -/
def State.hostTurn (s : State) : State := { s with schedule := s.schedule.next.2 }.act s.comingTurn

end Sys2Proof.Machine
end

