-- ==== Sys2Proof/Machine/Engine.lean ====
section
/-! DEFINITION. Machine/Engine.lean: the engine's step on one record, the fetch sequencer and the body of a run's loop, for any
OPCODE_MAP. -/

namespace Sys2Proof.Machine

/-- The engine's `step(opcode, operand_left, operand_right)` in a running core: decode, then the instruction's own step; an illegal
opcode faults before anything else (40_step.md R56, R57; 60_exceptions.md R95). -/
def engineStep (m : OpcodeMap) (rec : Record) (s : State) : Host.Outcome State Fault Refusal :=
  match decodeRecord m rec with
  | .ok i => exec i s
  | .error k => .next (s.raise k)

/-- `Fetch(i)` (20_memory.md R27). -/
def State.fetch (s : State) (i : Nat) : Option Record := s.image[i]?

/-- The body of the run's loop after the host's turn: stop unless Running; where there is no record at PC set the status Ended and stop; else
fetch and step (40_step.md R56, R68, R69). A stop carries the run's final state. An image of more than 256 records is refused (20_memory.md R26). -/
def fetchAndStep (m : OpcodeMap) (s : State) : Host.Outcome State Fault Refusal :=
  match s.status with
  | .faulted k => .fault (.stoppedFaulted k s)
  | .ended => .fault (.stoppedEnded s)
  | .running =>
    if s.image.length > maxRecords then .refused .imageTooLong
    else
      match s.fetch s.pc.toNat with
      | none => .fault (.runEnded { s with status := .ended })
      | some rec => engineStep m rec s

/-- One turn of the run's loop: the host's actions, then the core (40_step.md R68). -/
def stepWith (m : OpcodeMap) (s : State) : Host.Outcome State Fault Refusal := fetchAndStep m s.hostTurn

/-- One turn of the run's loop under the host actions given, whatever the state's own schedule is (40_step.md R68). -/
def turnWith (m : OpcodeMap) (actions : List HostAction) (s : State) : Host.Outcome State Fault Refusal := fetchAndStep m (s.act actions)

/-- `k` turns of the run under ANY host schedule: `sch n` is what the host does before step n, for every n without end (60_exceptions.md
R108, a parameter of the run, 10_state.md R12). -/
def runUnder (m : OpcodeMap) : (sch : Nat → List HostAction) → Nat → State → Host.Outcome State Fault Refusal
  | _, 0, s => .next s
  | sch, k + 1, s =>
    match turnWith m (sch 0) s with
    | .next t => runUnder m (fun n => sch (n + 1)) k t
    | .fault r => .fault r
    | .refused r => .refused r

/-- `k` turns of the run under the state's own schedule, at any OPCODE_MAP (40_step.md R68). -/
def runWith (m : OpcodeMap) : Nat → State → Host.Outcome State Fault Refusal
  | 0, s => .next s
  | k + 1, s =>
    match stepWith m s with
    | .next t => runWith m k t
    | .fault r => .fault r
    | .refused r => .refused r

/-- What fills the records an image lacks when one is placed beyond its end; it is never fetched by the step it is placed for. -/
def fillerRecord : Record := ⟨0x00, 0x00, 0x00⟩

/-- An image with `rec` as its record `i`, filled up to it if need be, and cut to 256 records. -/
def placeRecord (image : List Record) (i : Nat) (rec : Record) : List Record :=
  ((image ++ List.replicate (i + 1 - image.length) fillerRecord).set i rec).take maxRecords

/-- The state in which the very next step runs `rec`: `rec` stands where that step fetches, after the host's turn before it, and the core
runs (log entry 10). -/
def State.withRecord (s : State) (rec : Record) : State :=
  { s with image := placeRecord s.image s.hostTurn.pc.toNat rec, status := .running }

end Sys2Proof.Machine
end

