-- ==== Sys2Proof/Machine/Step.lean ====
section
/-! DEFINITION. Machine/Step.lean: the machine's step, with the reference opcode assignment. -/

namespace Sys2Proof.Machine

/-- One step of the machine: `stepWith` at REF_OPCODES (30_encoding.md R47; log entry 1). -/
def step (s : State) : Host.Outcome State Fault Refusal := stepWith refOpcodes s

/-- The state in which the very next step runs the instruction of the table word `w` (the host's question; log entries 9 and 10). -/
def State.withFetchWord (s : State) (_nbits w : Nat) : State := s.withRecord (recordOfWord w)

end Sys2Proof.Machine
end

