-- ==== Sys2Proof/Machine/Asm.lean ====
section
/-! DEFINITION. Machine/Asm.lean: the assembler lines of 30_encoding.md R52, their records (R53) and their text. It has no part in the
machine's step (92_eei_decisions.md D16). -/

namespace Sys2Proof.Machine

/-- A register operand of a line: a named cell, or `@0xNN`, the raw address, valid or not (30_encoding.md R52). -/
inductive AsmReg where
  | cell (c : Cell)
  | raw (a : Byte)
  deriving DecidableEq, Repr

/-- `addr(dst)`, `addr(src)` (30_encoding.md R53). -/
def AsmReg.addr : AsmReg → Byte
  | .cell c => c.address
  | .raw a => a

/-- The second operand of a line: a register, or `#k` (30_encoding.md R52). -/
inductive AsmSrc where
  | reg (r : AsmReg)
  | imm (k : Byte)
  deriving DecidableEq, Repr

/-- A line: `OP dst, src`, or a branch with its target as the number a label stands for (30_encoding.md R52). -/
inductive AsmLine where
  | data (op : Operation) (dst : AsmReg) (src : AsmSrc)
  | branch (op : Operation) (t : Byte)
  deriving DecidableEq, Repr

/-- A two-operand line names no branch, and a one-operand line a branch (30_encoding.md R52). -/
def AsmLine.wellFormed : AsmLine → Bool
  | .data op _ _ => op.opClass != .branch
  | .branch op _ => op.opClass == .branch

/-- The record of a line (30_encoding.md R53). -/
def AsmLine.assemble (m : OpcodeMap) : AsmLine → Record
  | .data op dst (.reg src) => encodeReg m op dst.addr src.addr
  | .data op dst (.imm k) => encodeImm m op dst.addr k
  | .branch op t => encodeBranch m op t

/-- A register address as an operand: by name where it is a cell's, else raw. -/
def AsmReg.ofAddr (a : Byte) : AsmReg :=
  match decodeAddr a with
  | some c => .cell c
  | none => .raw a

/-- The line a disassembler prints for an instruction: a branch with its target alone (30_encoding.md R53). -/
def asmOfInstr (i : Instr) : AsmLine :=
  match i.rightOperand with
  | some (.registerOperand, r) => .data i.op (.ofAddr i.left) (.reg (.ofAddr r))
  | some (.immediateOperand, k) => .data i.op (.ofAddr i.left) (.imm k)
  | none => .branch i.op i.left

/-- The disassembler: the line of a legal record (30_encoding.md R53). -/
def disassemble (m : OpcodeMap) (rec : Record) : Option AsmLine :=
  match decodeRecord m rec with
  | .ok i => some (asmOfInstr i)
  | .error _ => none

/-! The text of a line (30_encoding.md R52; numbers in decimal and raw addresses in two hexadecimal digits: log entry 11). -/

/-- The mnemonic. -/
def mnemonicText : Operation → String
  | .mov => "MOV"
  | .add => "ADD"
  | .sub => "SUB"
  | .lsh => "LSH"
  | .rsh => "RSH"
  | .and => "AND"
  | .or => "OR"
  | .xor => "XOR"
  | .cmp => "CMP"
  | .br => "BR"
  | .be => "BE"
  | .bne => "BNE"
  | .bg => "BG"
  | .bl => "BL"

/-- One hexadecimal digit. -/
def hexDigit (n : Nat) : String :=
  (["0", "1", "2", "3", "4", "5", "6", "7", "8", "9", "A", "B", "C", "D", "E", "F"][n]?).getD ""

/-- A byte as two hexadecimal digits. -/
def hexText (b : Byte) : String := "0x" ++ hexDigit (b.toNat / 16) ++ hexDigit (b.toNat % 16)

/-- The name of a cell. -/
def cellText : Cell → String
  | .general i => "G" ++ hexDigit i.val
  | .button i => "B" ++ hexDigit i.val
  | .display i => "D" ++ hexDigit i.val
  | .programCounter => "PC"
  | .conditionResult => "CR"

/-- A register operand. -/
def AsmReg.text : AsmReg → String
  | .cell c => cellText c
  | .raw a => "@" ++ hexText a

/-- A second operand. -/
def AsmSrc.text : AsmSrc → String
  | .reg r => r.text
  | .imm k => "#" ++ toString k.toNat

/-- A line. -/
def AsmLine.text : AsmLine → String
  | .data op dst src => mnemonicText op ++ " " ++ dst.text ++ ", " ++ src.text
  | .branch op t => mnemonicText op ++ " " ++ toString t.toNat

end Sys2Proof.Machine
end

