-- ==== Sys2Proof/Safety.lean ====
section
/-! DEFINITION. Safety.lean: what claims speak of: the cells an instruction may write, the value a step's read sees, the whole effect of a
step that writes one cell, the explanation of a stopped status, and states that differ in the host's part only. -/

namespace Sys2Proof

/-- The host action is a poll or a render, not a reset. -/
def HostAction.keepsRun : HostAction → Bool
  | .poll _ _ => true
  | .render => true
  | .reset _ => false

end Sys2Proof

namespace Sys2Proof.Machine

/-- The cell an ALU operation, CMP or MOV writes in its write-back, if its address is valid; a branch writes PC (40_step.md R59). -/
def destination (i : Instr) : Option Cell :=
  match i.op.opClass with
  | .alu => decodeAddr i.left
  | .move => decodeAddr i.left
  | .compare => some .conditionResult
  | .branch => some .programCounter

/-- Whether some register address the instruction loads or stores is outside the register map (60_exceptions.md R92, 41_alu.md R71). -/
def hasInvalidAddress (i : Instr) : Bool :=
  !i.isBranch && ((decodeAddr i.left).isNone || i.rightAddr?.any fun r => (decodeAddr r).isNone)

/-- The value a Load sees inside a step: the advanced PC for PC, the value before the step for every other cell (40_step.md R58, R64). -/
def State.seen (s : State) : Cell → Byte
  | .programCounter => s.pc + 1
  | c => s.value c

/-- The right operand's value inside a step, where it has one (30_encoding.md R44). -/
def State.rightSeen (s : State) : Mode → Byte → Option Byte
  | .registerOperand, r => (decodeAddr r).map s.seen
  | .immediateOperand, k => some k

/-- `t` is `s` after a step whose one write puts `v` into the cell `c`: every other cell is as before but PC, which is advanced unless it
is `c` itself; nothing outside the register file changes (40_step.md R59, R65, R67). -/
structure WroteCell (s t : State) (c : Cell) (v : Byte) : Prop where
  /-- The cell holds the value. -/
  written : t.value c = v
  /-- PC is advanced, if it is not the cell written. -/
  advanced : c ≠ .programCounter → t.pc = s.pc + 1
  /-- Every other cell is unchanged. -/
  others : ∀ c', c' ≠ c → c' ≠ .programCounter → t.value c' = s.value c'
  /-- The status is unchanged. -/
  status : t.status = s.status
  /-- The program store is unchanged. -/
  image : t.image = s.image
  /-- The host's coming actions are unchanged. -/
  schedule : t.schedule = s.schedule
  /-- What was shown is unchanged. -/
  frames : t.frames = s.frames

/-- `t` is `s` after a branch that leaves PC at `p'`: nothing else changes (42_compare_branch.md R85). -/
def Jumped (s t : State) (p' : Byte) : Prop := t = { s with pc := p' }

/-- The status says what the state shows: a faulted core's PC names the faulting record and the kind of fault is the one that record
raises, and an ended core's PC has no record (60_exceptions.md R92, R94; 40_step.md R69). -/
def StatusExplained (m : OpcodeMap) (s : State) : Prop :=
  match s.status with
  | .running => True
  | .ended => s.fetch s.pc.toNat = none
  | .faulted .invalidOpcode => ∃ rec, s.fetch s.pc.toNat = some rec ∧ decodeRecord m rec = .error .invalidOpcode
  | .faulted .invalidRegisterAddress =>
    ∃ rec i, s.fetch s.pc.toNat = some rec ∧ decodeRecord m rec = .ok i ∧ hasInvalidAddress i = true

/-- The invariant of a run: the program store has its size, and a stopped status is explained. -/
structure State.Inv (m : OpcodeMap) (s : State) : Prop where
  image : ProgramStore.wf s.image
  explained : StatusExplained m s

/-- The same state with another record of what was shown. -/
def State.withFrames (s : State) (frames : List (Vector Byte 4)) : State := { s with frames := frames }

/-- The same core with another program store, other host actions to come and another record of what was shown. -/
def State.withRun (s : State) (image : List Record) (schedule : HostSchedule) (frames : List (Vector Byte 4)) : State :=
  { s with image := image, schedule := schedule, frames := frames }

/-- The same core with another host schedule to come. -/
def State.withSchedule (s : State) (schedule : HostSchedule) : State := { s with schedule := schedule }

/-- A stop with its final state changed by `f`. -/
def Fault.mapFinal (f : State → State) : Fault → Fault
  | .stoppedFaulted k s => .stoppedFaulted k (f s)
  | .stoppedEnded s => .stoppedEnded (f s)
  | .runEnded s => .runEnded (f s)

/-- The state a run stops in. -/
def Fault.final : Fault → State
  | .stoppedFaulted _ s => s
  | .stoppedEnded s => s
  | .runEnded s => s

/-- An outcome with the state it carries, next or final, changed by `f`. -/
def mapState (f : State → State) : Host.Outcome State Fault Refusal → Host.Outcome State Fault Refusal
  | .next s => .next (f s)
  | .fault r => .fault (r.mapFinal f)
  | .refused r => .refused r

end Sys2Proof.Machine
end

