-- ==== Sys2Proof/Certificates/Slice0/Obligations.lean ====
section
/-! DEFINITION. Certificates/Slice0/Obligations.lean: the statements for the provers. -/

namespace Sys2Proof.Claims

open Sys2Proof Sys2Proof.Machine

/-! The spec's computations on unbounded naturals, brought back to a byte where the rule says so (00_scope.md R8); written from the
rules and not from the model's functions. -/

/-- `(a + b) mod 256` (41_alu.md R75). -/
def sumMod (a b : Nat) : Nat := (a + b) % 256

/-- `(a + 256 - b) mod 256` (41_alu.md R76, 42_compare_branch.md R82). -/
def diffMod (a b : Nat) : Nat := (a + 256 - b) % 256

/-- `if b >= 8 then 0 else (a * 2^b) mod 256` (41_alu.md R77, 00_scope.md R8). -/
def shiftLeftMod (a b : Nat) : Nat := if 8 ≤ b then 0 else (a * 2 ^ b) % 256

/-- `if b >= 8 then 0 else floor(a / 2^b)` (41_alu.md R78, 00_scope.md R8). -/
def shiftRightNat (a b : Nat) : Nat := if 8 ≤ b then 0 else a / 2 ^ b

/-- Under every admissible OPCODE_MAP the record `(OPCODE_MAP(op), l, r)` is the register form and `(OPCODE_MAP(op) | 1, l, r)` the immediate
form. (The bytes of REF_OPCODES are a statement of their own, ReferenceOpcodesAreTheTable.) -/
def EncodedAs (op : Operation) (reg imm : Byte → Byte → Instr) : Prop :=
  ∀ m : OpcodeMap, m.Admissible → ∀ l r : Byte,
    decodeRecord m ⟨m op, l, r⟩ = .ok (reg l r) ∧ decodeRecord m ⟨m op ||| 1, l, r⟩ = .ok (imm l r)

/-- Whatever bit 0 of the opcode and the right byte are, the record with `op`'s code and left byte `t` is the branch, under
every admissible OPCODE_MAP. -/
def BranchEncodedAs (op : Operation) (branch : Byte → Instr) : Prop :=
  ∀ m : OpcodeMap, m.Admissible → ∀ t r : Byte,
    decodeRecord m ⟨m op, t, r⟩ = .ok (branch t) ∧ decodeRecord m ⟨m op ||| 1, t, r⟩ = .ok (branch t)

/-- On readable operands each form completes, writes `f` of the operands' values into operand_left's cell, and changes nothing else but PC. -/
def ComputesInPlace (reg imm : Byte → Byte → Instr) (f : Nat → Nat → Nat) : Prop :=
  ∀ (s : State) (l : Byte) (c : Cell), decodeAddr l = some c →
    (∀ (r : Byte) (c' : Cell), decodeAddr r = some c' →
      ∃ t, exec (reg l r) s = .next t ∧ WroteCell s t c (BitVec.ofNat 8 (f (s.seen c).toNat (s.seen c').toNat))) ∧
    (∀ k : Byte, ∃ t, exec (imm l k) s = .next t ∧ WroteCell s t c (BitVec.ofNat 8 (f (s.seen c).toNat k.toNat)))

/-- An invalid operand_left, or an invalid operand_right in register mode, faults with InvalidRegisterAddress, and no register changes;
in immediate mode the right byte is never checked. -/
def FaultsOnInvalidAddress (reg imm : Byte → Byte → Instr) : Prop :=
  (∀ (s : State) (l r : Byte), decodeAddr l = none ∨ decodeAddr r = none →
    exec (reg l r) s = .next { s with status := .faulted .invalidRegisterAddress }) ∧
  (∀ (s : State) (l k : Byte), decodeAddr l = none →
    exec (imm l k) s = .next { s with status := .faulted .invalidRegisterAddress })

/-- The branch completes: PC is the target if `pred` holds of CR read as an unsigned byte, else the advanced PC; nothing else changes. -/
def BranchesWhen (branch : Byte → Instr) (pred : Nat → Prop) : Prop :=
  ∀ (s : State) (t : Byte),
    (pred s.cr.toNat → exec (branch t) s = .next { s with pc := t }) ∧
    (¬ pred s.cr.toNat → exec (branch t) s = .next { s with pc := s.pc + 1 })

/-- The whole rule of an ALU operation: its encoding, what it computes, its exceptions. -/
def AluRule (op : Operation) (reg imm : Byte → Byte → Instr) (f : Nat → Nat → Nat) : Prop :=
  EncodedAs op reg imm ∧ ComputesInPlace reg imm f ∧ FaultsOnInvalidAddress reg imm

/-- The whole rule of a branch: its encoding, and when it is taken. -/
def BranchRule (op : Operation) (branch : Byte → Instr) (pred : Nat → Prop) : Prop :=
  BranchEncodedAs op branch ∧ BranchesWhen branch pred

/-- The value an ALU operation or MOV writes, from the left cell's and the right operand's values (41_alu.md R75 to R81, 43_move.md R91);
for the other operations, which write no such value, the left value. -/
def writtenBy : Operation → Nat → Nat → Nat
  | .add, a, b => sumMod a b
  | .sub, a, b => diffMod a b
  | .lsh, a, b => shiftLeftMod a b
  | .rsh, a, b => shiftRightNat a b
  | .and, a, b => a &&& b
  | .or, a, b => a ||| b
  | .xor, a, b => a ^^^ b
  | .mov, _, b => b
  | .cmp, a, _ => a
  | .br, a, _ => a
  | .be, a, _ => a
  | .bne, a, _ => a
  | .bg, a, _ => a
  | .bl, a, _ => a

/-- When a branch is taken, with CR read as an unsigned byte (the table of 42_compare_branch.md R83); no other operation branches. -/
def takenAt : Operation → Nat → Prop
  | .br, _ => True
  | .be, cr => cr = 0
  | .bne, cr => cr ≠ 0
  | .bg, cr => cr < 128
  | .bl, cr => cr > 127
  | .mov, _ => False
  | .add, _ => False
  | .sub, _ => False
  | .lsh, _ => False
  | .rsh, _ => False
  | .and, _ => False
  | .or, _ => False
  | .xor, _ => False
  | .cmp, _ => False

/-- The 28 legal opcode bytes under REF_OPCODES (30_encoding.md R49). -/
def refLegalBytes : List Byte :=
  [0x10, 0x11, 0x20, 0x21, 0x22, 0x23, 0x30, 0x31, 0x32, 0x33, 0x40, 0x41, 0x42, 0x43, 0x44, 0x45] ++
  [0x50, 0x51, 0x52, 0x53, 0x54, 0x55, 0x56, 0x57, 0x58, 0x59, 0x60, 0x61]

end Sys2Proof.Claims

open Sys2Proof Sys2Proof.Machine Sys2Proof.Claims

/-! ## The register file -/

/-- 10_state.md R13: the register map, address by address. -/
def Obligations.RegisterMapIsTheTable : Prop :=
  (∀ i : Fin 8, decodeAddr (0x00 + BitVec.ofNat 8 i.val) = some (.general i)) ∧
  (∀ i : Fin 2, decodeAddr (0x10 + BitVec.ofNat 8 i.val) = some (.button i)) ∧
  (∀ i : Fin 4, decodeAddr (0x12 + BitVec.ofNat 8 i.val) = some (.display i)) ∧
  decodeAddr 0x16 = some .programCounter ∧
  decodeAddr 0x17 = some .conditionResult ∧
  (∀ a : Byte, (0x08 ≤ a.toNat ∧ a.toNat ≤ 0x0F) ∨ 0x18 ≤ a.toNat → decodeAddr a = none)

/-- 10_state.md R14: each of the 16 cells has one address and no two addresses name one cell; any other address faults; so a store to one
address is seen at that address and at no other. -/
def Obligations.ValidAddressesAreDistinctCells : Prop :=
  (∀ c : Cell, decodeAddr c.address = some c) ∧
  (∀ (a b : Byte) (c : Cell), decodeAddr a = some c → decodeAddr b = some c → a = b) ∧
  (∀ (s : State) (a v : Byte), (∀ c : Cell, a ≠ c.address) →
    s.load a = .error .invalidRegisterAddress ∧ s.store a v = .error .invalidRegisterAddress) ∧
  (∀ (s s' : State) (a v : Byte), s.store a v = .ok s' → s'.load a = .ok v ∧ ∀ b : Byte, b ≠ a → s'.load b = s.load b)

/-- 10_state.md R15: Load and Store raise InvalidRegisterAddress exactly where the decoder gives no cell; otherwise Load returns the
cell's value, and Store replaces it and changes exactly that cell. -/
def Obligations.LoadAndStoreContract : Prop :=
  (∀ (s : State) (a v : Byte), decodeAddr a = none →
    s.load a = .error .invalidRegisterAddress ∧ s.store a v = .error .invalidRegisterAddress) ∧
  (∀ (s : State) (a v : Byte) (c : Cell), decodeAddr a = some c →
    s.load a = .ok (s.value c) ∧
    ∃ s', s.store a v = .ok s' ∧ s'.value c = v ∧ (∀ c', c' ≠ c → s'.value c' = s.value c') ∧
      s'.status = s.status ∧ s'.image = s.image ∧ s'.schedule = s.schedule ∧ s'.frames = s.frames)

/-! ## The instructions -/

/-- 41_alu.md R75. A read of PC gives the advanced value (R64, the spec's decision D4; log entry 3), here and in the statements below. -/
def Obligations.AddStoresSumMod256 : Prop := AluRule .add .addReg .addImm sumMod

/-- 41_alu.md R76. -/
def Obligations.SubStoresDifferenceMod256 : Prop := AluRule .sub .subReg .subImm diffMod

/-- 41_alu.md R77. -/
def Obligations.LshShiftsLeftLosingBits : Prop := AluRule .lsh .lshReg .lshImm shiftLeftMod

/-- 41_alu.md R78. The zero fill is the spec's own decision (92_eei_decisions.md D19; log entry 3). -/
def Obligations.RshShiftsRightWithZeroFill : Prop := AluRule .rsh .rshReg .rshImm shiftRightNat

/-- 41_alu.md R79. -/
def Obligations.AndStoresBitwiseAnd : Prop := AluRule .and .andReg .andImm (fun a b => a &&& b)

/-- 41_alu.md R80. -/
def Obligations.OrStoresBitwiseOr : Prop := AluRule .or .orReg .orImm (fun a b => a ||| b)

/-- 41_alu.md R81. -/
def Obligations.XorStoresBitwiseXor : Prop := AluRule .xor .xorReg .xorImm (fun a b => a ^^^ b)

/-- 42_compare_branch.md R82: CMP writes the whole difference into CR, leaves operand_left's cell (unless it is CR) and everything
else, and advances PC. -/
def Obligations.CmpStoresDifferenceInCr : Prop :=
  EncodedAs .cmp .cmpReg .cmpImm ∧
  (∀ (s : State) (l : Byte) (c : Cell), decodeAddr l = some c →
    (∀ (r : Byte) (c' : Cell), decodeAddr r = some c' →
      ∃ t, exec (.cmpReg l r) s = .next t ∧
        WroteCell s t .conditionResult (BitVec.ofNat 8 (diffMod (s.seen c).toNat (s.seen c').toNat))) ∧
    (∀ k : Byte, ∃ t, exec (.cmpImm l k) s = .next t ∧
      WroteCell s t .conditionResult (BitVec.ofNat 8 (diffMod (s.seen c).toNat k.toNat)))) ∧
  FaultsOnInvalidAddress .cmpReg .cmpImm

/-- 43_move.md R91: MOV writes the right operand's value into operand_left's cell, with no arithmetic, and changes nothing else but PC. -/
def Obligations.MovStoresRightOperand : Prop :=
  EncodedAs .mov .movReg .movImm ∧
  (∀ (s : State) (l : Byte) (c : Cell), decodeAddr l = some c →
    (∀ (r : Byte) (c' : Cell), decodeAddr r = some c' → ∃ t, exec (.movReg l r) s = .next t ∧ WroteCell s t c (s.seen c')) ∧
    (∀ k : Byte, ∃ t, exec (.movImm l k) s = .next t ∧ WroteCell s t c k)) ∧
  FaultsOnInvalidAddress .movReg .movImm

/-- 42_compare_branch.md R86. -/
def Obligations.BrAlwaysJumps : Prop := BranchRule .br .br (fun _ => True)

/-- 42_compare_branch.md R87. -/
def Obligations.BeJumpsWhenCrIsZero : Prop := BranchRule .be .be (fun cr => cr = 0)

/-- 42_compare_branch.md R88. -/
def Obligations.BneJumpsWhenCrIsNotZero : Prop := BranchRule .bne .bne (fun cr => cr ≠ 0)

/-- 42_compare_branch.md R89. That BG is CR < 128 is the spec's own decision (92_eei_decisions.md D7; log entry 3). -/
def Obligations.BgJumpsWhenCrIsBelow128 : Prop := BranchRule .bg .bg (fun cr => cr < 128)

/-- 42_compare_branch.md R90. That BL is CR > 127 is the spec's own decision (92_eei_decisions.md D7; log entry 3). -/
def Obligations.BlJumpsWhenCrIsAbove127 : Prop := BranchRule .bl .bl (fun cr => cr > 127)

/-! ## Whole-machine rules over the instructions -/

/-- 40_step.md R59: a step writes at most the instruction's destination besides the PC advance, and nothing outside the register file but,
on a fault, the status. -/
def Obligations.StepWritesOnlyItsDestination : Prop :=
  ∀ (i : Instr) (s t : State), exec i s = .next t →
    (∀ c : Cell, c ≠ .programCounter → destination i ≠ some c → t.value c = s.value c) ∧
    (t.status = s.status ∨ t.status = .faulted .invalidRegisterAddress) ∧
    t.image = s.image ∧ t.schedule = s.schedule ∧ t.frames = s.frames

/-- 10_state.md R16, R17, R18, R20: a GP, BT or DP register changes only in an ALU operation or MOV that names its address, CR only in
CMP or in an ALU operation or MOV that names 0x17. -/
def Obligations.RegistersChangeOnlyWhenNamed : Prop :=
  ∀ (i : Instr) (s t : State), exec i s = .next t →
    (∀ c : Cell, c ≠ .programCounter → t.value c ≠ s.value c →
      (i.left = c.address ∧ (i.op.opClass = .alu ∨ i.op.opClass = .move)) ∨ (c = .conditionResult ∧ i.op = .cmp))

/-- 40_step.md R67: the final PC of every step, row by row of the table (92_eei_decisions.md D4 to D6; log entry 3). -/
def Obligations.FinalPcOfEveryStep : Prop :=
  ∀ (i : Instr) (s : State),
    -- ALU operation or MOV, operand_left ≠ 0x16
    ((i.op.opClass = .alu ∨ i.op.opClass = .move) → hasInvalidAddress i = false → i.left ≠ 0x16 →
      ∃ t, exec i s = .next t ∧ t.pc = s.pc + 1) ∧
    -- ALU operation or MOV, operand_left = 0x16: the value written
    ((i.op.opClass = .alu ∨ i.op.opClass = .move) → hasInvalidAddress i = false → i.left = 0x16 →
      ∀ (mode : Mode) (r b : Byte), i.rightOperand = some (mode, r) → s.rightSeen mode r = some b →
        ∃ t, exec i s = .next t ∧ t.pc = BitVec.ofNat 8 (writtenBy i.op (s.pc + 1).toNat b.toNat)) ∧
    -- CMP
    (i.op = .cmp → hasInvalidAddress i = false → ∃ t, exec i s = .next t ∧ t.pc = s.pc + 1) ∧
    -- a branch whose predicate holds
    (i.op.opClass = .branch → takenAt i.op s.cr.toNat → ∃ t, exec i s = .next t ∧ t.pc = i.left) ∧
    -- a branch whose predicate fails
    (i.op.opClass = .branch → ¬ takenAt i.op s.cr.toNat → ∃ t, exec i s = .next t ∧ t.pc = s.pc + 1) ∧
    -- any fault
    (hasInvalidAddress i = true → ∃ t, exec i s = .next t ∧ t.status = .faulted .invalidRegisterAddress ∧ t.pc = s.pc)

/-- 40_step.md R64: inside a step PC reads as the advanced value, as a right operand and as a left one, and a write to PC is its final value (R65, R54).
Both are the spec's own decisions (92_eei_decisions.md D4, D5; log entry 3). -/
def Obligations.PcReadsAsAdvanced : Prop :=
  ∀ (s : State) (g : Fin 8) (k : Byte),
    (∃ t, exec (.movReg (Cell.address (.general g)) 0x16) s = .next t ∧ t.gp[g] = s.pc + 1) ∧
    (∃ t, exec (.addReg (Cell.address (.general g)) 0x16) s = .next t ∧ t.gp[g] = s.gp[g] + (s.pc + 1)) ∧
    (∃ t, exec (.cmpImm 0x16 k) s = .next t ∧ t.cr = s.pc + 1 - k ∧ t.pc = s.pc + 1) ∧
    (∃ t, exec (.addImm 0x16 k) s = .next t ∧ t.pc = s.pc + 1 + k) ∧
    (∃ t, exec (.movImm 0x16 k) s = .next t ∧ t.pc = k)

/-- 40_step.md R58: an instruction that names one register twice reads its old value twice. -/
def Obligations.SameRegisterIsReadTwiceBeforeTheWrite : Prop :=
  ∀ (s : State) (a : Byte) (c : Cell), decodeAddr a = some c →
    (∃ t, exec (.subReg a a) s = .next t ∧ t.value c = 0) ∧
    (∃ t, exec (.addReg a a) s = .next t ∧ (t.value c).toNat = (2 * (s.seen c).toNat) % 256) ∧
    (∃ t, exec (.xorReg a a) s = .next t ∧ t.value c = 0) ∧
    (∃ t, exec (.andReg a a) s = .next t ∧ t.value c = s.seen c) ∧
    (∃ t, exec (.cmpReg a a) s = .next t ∧ t.cr = 0)

/-- 42_compare_branch.md R84 (1) to (3): BG and BE overlap at CR = 0; exactly one of BG and BL, and of BE and BNE, is taken; after a CMP
of a and b, BG is taken exactly when (a - b) mod 256 < 128. -/
def Obligations.BranchPredicatesOverlapAndExclude : Prop :=
  (∀ (s : State) (t : Byte), s.cr = 0 → exec (.bg t) s = .next { s with pc := t } ∧ exec (.be t) s = .next { s with pc := t }) ∧
  (∀ (s : State) (t : Byte),
    (exec (.bg t) s = .next { s with pc := t } ∧ exec (.bl t) s = .next { s with pc := s.pc + 1 }) ∨
    (exec (.bl t) s = .next { s with pc := t } ∧ exec (.bg t) s = .next { s with pc := s.pc + 1 })) ∧
  (∀ (s : State) (t : Byte),
    (exec (.be t) s = .next { s with pc := t } ∧ exec (.bne t) s = .next { s with pc := s.pc + 1 }) ∨
    (exec (.bne t) s = .next { s with pc := t } ∧ exec (.be t) s = .next { s with pc := s.pc + 1 })) ∧
  (∀ (s : State) (l k t : Byte) (c : Cell), decodeAddr l = some c →
    ∃ u, exec (.cmpImm l k) s = .next u ∧
      (diffMod (s.seen c).toNat k.toNat < 128 → exec (.bg t) u = .next { u with pc := t }) ∧
      (¬ diffMod (s.seen c).toNat k.toNat < 128 → exec (.bl t) u = .next { u with pc := t }))

/-- 40_step.md R60: a step of a legal record with valid register addresses runs on and makes its one write, which is its destination's, and
the PC advance (a branch: it sets PC alone, to its target or to the advanced PC); exactly the other records fault, and then every register,
PC included, and everything else is as it was, but for the status Faulted. (The value written is the business of the statements of each
instruction, the kind of fault that of FaultsExactlyWhenTheSpecSays.) -/
def Obligations.StepIsAllOrNothing : Prop :=
  ∀ (m : OpcodeMap) (rec : Record) (s : State), s.status = .running → ∃ t, engineStep m rec s = .next t ∧
    ((∃ i, decodeRecord m rec = .ok i ∧ hasInvalidAddress i = false ∧ t.status = .running ∧
        ((i.isBranch = false ∧ ∃ c v, destination i = some c ∧ WroteCell s t c v) ∨
         (i.isBranch = true ∧ (Jumped s t i.left ∨ Jumped s t (s.pc + 1))))) ∨
     ((decodeRecord m rec = .error .invalidOpcode ∨ ∃ i, decodeRecord m rec = .ok i ∧ hasInvalidAddress i = true) ∧
        ∃ k, t = { s with status := .faulted k }))

/-- 60_exceptions.md R92, R95: InvalidOpcode exactly for an illegal opcode byte, whatever the operands are, and InvalidRegisterAddress
exactly for a legal record with an invalid register address; every other step keeps the core running. -/
def Obligations.FaultsExactlyWhenTheSpecSays : Prop :=
  ∀ (m : OpcodeMap) (rec : Record) (s : State), s.status = .running →
    ((∀ op, m op ≠ rec.opcode &&& 0xFE) → engineStep m rec s = .next { s with status := .faulted .invalidOpcode }) ∧
    (∀ i, decodeRecord m rec = .ok i → hasInvalidAddress i = true →
      engineStep m rec s = .next { s with status := .faulted .invalidRegisterAddress }) ∧
    (∀ i, decodeRecord m rec = .ok i → hasInvalidAddress i = false → ∃ t, engineStep m rec s = .next t ∧ t.status = .running)

/-- 40_step.md R61: a step always completes, and it depends only on the core's state and the record: with another program store, other
host actions to come and another record of what was shown it does the same. -/
def Obligations.StepCompletesAndDependsOnCoreAndRecord : Prop :=
  (∀ (m : OpcodeMap) (rec : Record) (s : State), ∃ t, engineStep m rec s = .next t) ∧
  (∀ (m : OpcodeMap) (rec : Record) (s : State) (image : List Record) (schedule : HostSchedule)
    (frames : List (Vector Byte 4)),
    engineStep m rec (s.withRun image schedule frames) = mapState (fun t => t.withRun image schedule frames) (engineStep m rec s))

/-! ## The run -/

/-- 40_step.md R57, R68: where, after the host's turn, the core runs and the record at PC decodes to `i`, the step is `exec i` of that
state. -/
def Obligations.StepRunsTheRecordAtPc : Prop :=
  ∀ (m : OpcodeMap) (s : State) (rec : Record) (i : Instr),
    s.hostTurn.status = .running → ProgramStore.wf s.image → s.image[s.hostTurn.pc.toNat]? = some rec → decodeRecord m rec = .ok i →
    stepWith m s = exec i s.hostTurn ∧ (m = refOpcodes → step s = exec i s.hostTurn)

/-- 40_step.md R56, 93_implementation_defined.md U12: in a core that is not running after the host's turn there is no step; the model
says so by the faults stoppedFaulted and stoppedEnded, which carry the state after that turn (40_step.md R68; log entry 7). -/
def Obligations.StoppedCoreTakesNoStep : Prop :=
  ∀ (m : OpcodeMap) (s : State),
    (∀ k, s.hostTurn.status = .faulted k → stepWith m s = .fault (.stoppedFaulted k s.hostTurn)) ∧
    (s.hostTurn.status = .ended → stepWith m s = .fault (.stoppedEnded s.hostTurn))

/-- 40_step.md R68, R69: a running core with no record at PC ends, every register holds the value it held (the spec's own decision,
92_eei_decisions.md D12; log entry 3), and the run stops at once: no host action and no step comes after it, under the state's own schedule
and under any other. -/
def Obligations.RunEndsWhereThereIsNoRecord : Prop :=
  (∀ (m : OpcodeMap) (s : State),
    s.hostTurn.status = .running → ProgramStore.wf s.image → s.image.length ≤ s.hostTurn.pc.toNat →
    stepWith m s = .fault (.runEnded { s.hostTurn with status := .ended }) ∧
    ∀ k, runWith m (k + 1) s = .fault (.runEnded { s.hostTurn with status := .ended })) ∧
  (∀ (m : OpcodeMap) (sch : Nat → List HostAction) (k : Nat) (s : State),
    (s.act (sch 0)).status = .running → ProgramStore.wf s.image → s.image.length ≤ (s.act (sch 0)).pc.toNat →
    runUnder m sch (k + 1) s = .fault (.runEnded { s.act (sch 0) with status := .ended }))

/-- 20_memory.md R26, 92_eei_decisions.md D13: a running core with an image of more than 256 records is refused,
the spec's own decision (log entry 8). -/
def Obligations.ImageOver256RecordsIsRefused : Prop :=
  ∀ (m : OpcodeMap) (s : State), s.hostTurn.status = .running → 256 < s.image.length → stepWith m s = .refused .imageTooLong

/-- 20_memory.md R36: no step writes the program store, whatever the host does and whatever runs; nor does a stop. -/
def Obligations.ProgramStoreIsNeverWritten : Prop :=
  (∀ (m : OpcodeMap) (s t : State), stepWith m s = .next t → t.image = s.image) ∧
  (∀ (m : OpcodeMap) (s : State) (r : Fault), stepWith m s = .fault r → r.final.image = s.image)

/-- The step keeps the invariant: the program store has its size, a faulted core's PC names the record whose fault its status names, and
an ended core's PC has no record (60_exceptions.md R94, 40_step.md R69, 20_memory.md R26). The state a run stops in has it too. -/
def Obligations.StepKeepsStatusExplained : Prop :=
  (∀ (m : OpcodeMap) (s t : State), s.Inv m → stepWith m s = .next t → t.Inv m) ∧
  (∀ (s t : State), s.Inv refOpcodes → step s = .next t → t.Inv refOpcodes) ∧
  (∀ (m : OpcodeMap) (s : State) (r : Fault), s.Inv m → stepWith m s = .fault r → r.final.Inv m)

/-- The invariant holds after reset, for every RESET_REGS, every image of at most 256 records and every host schedule. -/
def Obligations.ResetStateIsExplained : Prop :=
  ∀ (m : OpcodeMap) (regs : ResetRegs) (image : List Record) (schedule : HostSchedule), ProgramStore.wf image →
    (State.afterReset regs image schedule).Inv m

/-- 60_exceptions.md R108, 40_step.md R68: no schedule runs out. Its turns are the listed ones, then without end those of its tail: the
repeated turns over and over, empty turns, or the free turns (the model's form of the open schedule, log entries 5 and 15). -/
def Obligations.HostScheduleNeverRunsOut : Prop :=
  (∀ (listed : List (List HostAction)) (tail : HostTail) (n : Nat) (h : n < listed.length),
    HostSchedule.turn ⟨listed, tail⟩ n = listed[n]) ∧
  (∀ (listed turns : List (List HostAction)) (n : Nat) (h : 0 < turns.length),
    HostSchedule.turn ⟨listed, .repeating turns⟩ (listed.length + n) = turns[n % turns.length]'(Nat.mod_lt n h)) ∧
  (∀ (listed : List (List HostAction)) (n : Nat), HostSchedule.turn ⟨listed, .repeating []⟩ (listed.length + n) = []) ∧
  (∀ (listed : List (List HostAction)) (k n : Nat), HostSchedule.turn ⟨listed, .free k⟩ (listed.length + n) = freeHostTurn (k + n))

/-- 60_exceptions.md R108, 40_step.md R68: every schedule is a run, prefix by prefix. The machine's k steps from a state are the k turns of
a run under that state's turns; the k turns of a run under ANY function from steps to host actions are the machine's k steps from the state
whose schedule lists the function's first k turns, which is another start state for each k; and the host's Core.run is those steps at
REF_OPCODES. (The runs differ in nothing but the schedule they leave to come.) -/
def Obligations.EveryHostScheduleIsARunOfTheMachine : Prop :=
  (∀ (m : OpcodeMap) (k : Nat) (s : State),
    mapState (fun t => t.withSchedule s.schedule) (runWith m k s) = runUnder m s.schedule.turn k s) ∧
  (∀ (m : OpcodeMap) (sch : Nat → List HostAction) (k : Nat) (tail : HostTail) (s : State),
    mapState (fun t => t.withSchedule s.schedule) (runWith m k (s.withSchedule ⟨(List.range k).map sch, tail⟩)) = runUnder m sch k s) ∧
  (∀ (k : Nat) (s : State), Host.Core.run Sys2Proof.core k s = runWith refOpcodes k s)

/-- 40_step.md R68, 42_compare_branch.md R86: a BR to its own index runs for ever: under every host schedule without a reset, one that acts
for ever included, the core is after any number of turns still running at that index. -/
def Obligations.BranchToItselfRunsForEver : Prop :=
  ∀ (m : OpcodeMap) (sch : Nat → List HostAction) (s : State) (rec : Record),
    s.status = .running → ProgramStore.wf s.image → s.fetch s.pc.toNat = some rec → decodeRecord m rec = .ok (.br s.pc) →
    (∀ n, ∀ a ∈ sch n, a.keepsRun = true) →
    ∀ k, ∃ t, runUnder m sch k s = .next t ∧ t.status = .running ∧ t.pc = s.pc ∧ t.image = s.image

/-! ## Faults, reset and the host -/

/-- 60_exceptions.md R96: a faulted core stays faulted until a reset: without one in the host's turn no step exists. -/
def Obligations.FaultIsFinalUntilReset : Prop :=
  ∀ (m : OpcodeMap) (s : State) (k : FaultKind), s.status = .faulted k →
    (∀ a ∈ s.comingTurn, a.keepsRun = true) → stepWith m s = .fault (.stoppedFaulted k s.hostTurn)

/-- 60_exceptions.md R93: the codes on the fault port, the spec's own decision (92_eei_decisions.md D10; log entry 3). -/
def Obligations.FaultPortCodes : Prop :=
  ∀ s : State,
    (s.status = .faulted .invalidOpcode → s.faultOut = 1) ∧
    (s.status = .faulted .invalidRegisterAddress → s.faultOut = 2) ∧
    ((∀ k, s.status ≠ .faulted k) → s.faultOut = 0) ∧
    s.faultOut ≠ 3

/-- 70_reset_and_hazards.md R110: the state after reset, cell by cell, for every RESET_REGS, at power-up with a loaded image and by the
reset event in any state (the spec's decisions D8 to D10; log entries 2 and 3). -/
def Obligations.ResetSetsEveryCell : Prop :=
  ∀ (regs : ResetRegs) (image : List Record) (schedule : HostSchedule) (s : State),
    ∀ t ∈ [State.afterReset regs image schedule, s.hostAct (.reset regs)],
      t.pc = 0x00 ∧ t.gp = regs.gp ∧ t.bt = regs.bt ∧ t.dp = regs.dp ∧ t.cr = regs.cr ∧ t.status = .running ∧ t.faultOut = 0

/-- The MODEL's choice (log entry 2): State.reset takes the reference RESET_REGS, zero for every cell, no program is loaded, and the
host does nothing (log entries 4 and 5). -/
def Obligations.ResetStateTakesReferenceZero : Prop :=
  (∀ c : Cell, State.reset.value c = 0x00) ∧ State.reset.status = .running ∧ State.reset.image = [] ∧ State.reset.schedule = .silent

/-- 60_exceptions.md R107: a poll writes both BT registers, each with 0 or 1, and changes no other state. -/
def Obligations.PollWritesBothButtons : Prop :=
  ∀ (s : State) (b0 b1 : Bool), ∃ t, s.hostAct (.poll b0 b1) = t ∧
    t.value (.button 0) = (if b0 then 1 else 0) ∧ t.value (.button 1) = (if b1 then 1 else 0) ∧
    (∀ c, c ≠ .button 0 → c ≠ .button 1 → t.value c = s.value c) ∧
    t.status = s.status ∧ t.image = s.image ∧ t.schedule = s.schedule ∧ t.frames = s.frames

/-- 60_exceptions.md R106: a render changes no state of the core; what it hands to the display is DP, which the model notes in
`frames` (log entry 6). -/
def Obligations.RenderReadsDpOnly : Prop :=
  ∀ s : State, s.hostAct .render = { s with frames := s.frames ++ [s.dp] }

/-- 60_exceptions.md R109: in a turn without a reset the host writes no GP, DP, PC or CR and no program store, and leaves the status.
The turn is the model's form of the host schedule (log entry 5). -/
def Obligations.HostWritesNoRegisterButButtons : Prop :=
  ∀ s : State, (∀ a ∈ s.comingTurn, a.keepsRun = true) →
    (∀ c : Cell, c ≠ .button 0 → c ≠ .button 1 → s.hostTurn.value c = s.value c) ∧
    s.hostTurn.status = s.status ∧ s.hostTurn.image = s.image

/-- 70_reset_and_hazards.md R115: what the display is shown grows only by renders, each of the DP contents of that moment: a step whose
turn has no render shows nothing, nor does a stop, so a DP value overwritten before any render is never shown (`frames` is the model's
own field, log entry 6). -/
def Obligations.NothingIsShownWithoutRender : Prop :=
  ∀ (m : OpcodeMap) (s : State), HostAction.render ∉ s.comingTurn →
    (∀ t, stepWith m s = .next t → t.frames = s.frames) ∧
    (∀ r, stepWith m s = .fault r → r.final.frames = s.frames)

/-- 60_exceptions.md R106, R109: what was shown never influences the machine. For each state one list says what its step shows, in a next
state and in the state a stop carries; and with any other record of what was shown the step does the same and shows that same list (`frames`
is the model's own field, log entry 6). -/
def Obligations.ShownFramesDoNotInfluenceTheRun : Prop :=
  ∀ (m : OpcodeMap) (s : State), ∃ shown : List (Vector Byte 4),
    (∀ t, stepWith m s = .next t → t.frames = s.frames ++ shown) ∧
    (∀ r, stepWith m s = .fault r → r.final.frames = s.frames ++ shown) ∧
    ∀ frames : List (Vector Byte 4),
      stepWith m (s.withFrames frames) = mapState (fun t => t.withFrames (frames ++ shown)) (stepWith m s)

/-! ## Encoding -/

/-- 30_encoding.md R48: the decoder, total in the opcode byte. -/
def Obligations.OpcodeDecoderIsTheRule : Prop :=
  ∀ (m : OpcodeMap), m.Admissible → ∀ (opcode : Byte),
    (∀ op, m op = opcode &&& 0xFE →
      decodeOp m opcode = .ok (op, if opcode.getLsbD 0 = false then .registerOperand else .immediateOperand)) ∧
    ((∀ op, m op ≠ opcode &&& 0xFE) → decodeOp m opcode = .error .invalidOpcode) ∧
    (∀ l r l' r' : Byte, (decodeRecord m ⟨opcode, l, r⟩).isOk = (decodeRecord m ⟨opcode, l', r'⟩).isOk)

/-- 30_encoding.md R49: under every admissible OPCODE_MAP exactly 28 of the 256 opcode bytes are legal, and 0xFE and 0xFF are not; under
REF_OPCODES they are the bytes listed. -/
def Obligations.ExactlyTwentyEightOpcodesAreLegal : Prop :=
  (∀ m : OpcodeMap, m.Admissible →
    ((List.range 256).filter fun n => (decodeOp m (BitVec.ofNat 8 n)).isOk).length = 28 ∧
    (∀ b : Byte, decodeOp m b = .error .invalidOpcode ↔ ∀ op, m op ≠ b &&& 0xFE) ∧
    decodeOp m 0xFE = .error .invalidOpcode ∧ decodeOp m 0xFF = .error .invalidOpcode) ∧
  (∀ b : Byte, (decodeOp refOpcodes b).isOk = true ↔ b ∈ refLegalBytes)

/-- 30_encoding.md R42, R46: under every admissible OPCODE_MAP a legal opcode byte selects a branch exactly when its high nibble is 0101. -/
def Obligations.BranchNibbleDecidesTheClass : Prop :=
  ∀ (m : OpcodeMap), m.Admissible → ∀ (opcode : Byte) (op : Operation) (mode : Mode), decodeOp m opcode = .ok (op, mode) →
    (op.opClass = .branch ↔ opcode >>> 4 = 0x05)

/-- Decode and encode agree: under every admissible OPCODE_MAP the record of every instruction decodes to it, as a record, and as the first
three bytes of any sequence (30_encoding.md R48, R53; 20_memory.md R28). -/
def Obligations.DecodeOfEncodeIsTheInstruction : Prop :=
  ∀ (m : OpcodeMap), m.Admissible → ∀ (i : Instr),
    decodeRecord m (encode m i) = .ok i ∧
    ∀ rest : List Byte, decodeBytes m (bytesOfRecords [encode m i] ++ rest) = .ok (i, rest)

/-- Encode and decode agree: a legal record is the record of its instruction, but for what a branch ignores, bit 0 of its opcode and its
right byte (30_encoding.md R42, R53). -/
def Obligations.EncodeOfDecodeIsTheRecord : Prop :=
  ∀ (m : OpcodeMap), m.Admissible → ∀ (rec : Record) (i : Instr), decodeRecord m rec = .ok i →
    encode m i = if i.isBranch then ⟨rec.opcode &&& 0xFE, rec.left, 0x00⟩ else rec

/-- 20_memory.md R28: record i of an image is its bytes 3i, 3i+1 and 3i+2; every list of records is an image's. -/
def Obligations.RecordsLieThreeBytesApart : Prop :=
  (∀ (bytes : List Byte) (recs : List Record), recordsOfBytes bytes = some recs →
    bytes.length = 3 * recs.length ∧
    ∀ (i : Nat) (rec : Record), recs[i]? = some rec →
      bytes[3 * i]? = some rec.opcode ∧ bytes[3 * i + 1]? = some rec.left ∧ bytes[3 * i + 2]? = some rec.right) ∧
  (∀ recs : List Record, recordsOfBytes (bytesOfRecords recs) = some recs) ∧
  (∀ bytes : List Byte, bytes.length % 3 ≠ 0 → recordsOfBytes bytes = none)

/-- REF_OPCODES as the table of 30_encoding.md R47 gives it, the spec's own choice (92_eei_decisions.md D1; log entry 1). -/
def Obligations.ReferenceOpcodesAreTheTable : Prop :=
  [Operation.mov, .add, .sub, .lsh, .rsh, .and, .or, .xor].map refOpcodes = [0x10, 0x20, 0x22, 0x30, 0x32, 0x40, 0x42, 0x44] ∧
  [Operation.br, .be, .bne, .bg, .bl, .cmp].map refOpcodes = [0x50, 0x52, 0x54, 0x56, 0x58, 0x60]

/-- Words written out from the opcode table's encodings decode to the instructions they stand for (30_encoding.md R38, R47; log entries 1
and 9). -/
def Obligations.TableWordsDecode : Prop :=
  decodeTableWord 24 0b000100010000001001000010 = some (.movImm 0x02 0x42) ∧
  decodeTableWord 24 0b001000000000000000000001 = some (.addReg 0x00 0x01) ∧
  decodeTableWord 24 0b001100110000001000000100 = some (.rshImm 0x02 0x04) ∧
  decodeTableWord 24 0b011000000000000000000001 = some (.cmpReg 0x00 0x01) ∧
  decodeTableWord 24 0b010100110000100111111111 = some (.be 0x09) ∧
  decodeTableWord 24 0b111111110000000000000000 = none

/-- 30_encoding.md R52, R53: a well-formed line assembles to a record that decodes to an instruction of its operation, whose operands are
the line's; and a disassembled instruction assembles to its record. -/
def Obligations.AssemblerAgreesWithTheEncoder : Prop :=
  (∀ (m : OpcodeMap), m.Admissible → ∀ (line : AsmLine), line.wellFormed = true →
    ∃ i, decodeRecord m (line.assemble m) = .ok i ∧
      match line with
      | .data op dst (.reg src) => i.op = op ∧ i.left = dst.addr ∧ i.rightOperand = some (.registerOperand, src.addr)
      | .data op dst (.imm k) => i.op = op ∧ i.left = dst.addr ∧ i.rightOperand = some (.immediateOperand, k)
      | .branch op t => i.op = op ∧ i.left = t ∧ i.rightOperand = none) ∧
  (∀ (m : OpcodeMap) (i : Instr), (asmOfInstr i).assemble m = encode m i)
end

