-- ==== Sys2Proof/Laws/Arithmetic.lean ====
section
/-! SUPPORT. Laws/Arithmetic.lean: each computation of the ALU and of the compare/branch unit as arithmetic on naturals. -/

namespace Sys2Proof.Machine

theorem aluAdd_toNat (a b : Byte) : (aluAdd a b).toNat = (a.toNat + b.toNat) % 256 := BitVec.toNat_add a b

theorem aluSub_toNat (a b : Byte) : (aluSub a b).toNat = (a.toNat + 256 - b.toNat) % 256 := by
  have := b.isLt
  simp only [aluSub, BitVec.toNat_sub]
  omega

theorem compareDiff_toNat (a b : Byte) : (compareDiff a b).toNat = (a.toNat + 256 - b.toNat) % 256 := aluSub_toNat a b

theorem aluLsh_toNat (a b : Byte) : (aluLsh a b).toNat = if 8 ≤ b.toNat then 0 else (a.toNat * 2 ^ b.toNat) % 256 := by
  unfold aluLsh
  split <;> simp [Nat.shiftLeft_eq]

theorem aluRsh_toNat (a b : Byte) : (aluRsh a b).toNat = if 8 ≤ b.toNat then 0 else a.toNat / 2 ^ b.toNat := by
  unfold aluRsh
  split <;> simp [Nat.shiftRight_eq_div_pow]

theorem aluAnd_toNat (a b : Byte) : (aluAnd a b).toNat = a.toNat &&& b.toNat := BitVec.toNat_and a b

theorem aluOr_toNat (a b : Byte) : (aluOr a b).toNat = a.toNat ||| b.toNat := BitVec.toNat_or a b

theorem aluXor_toNat (a b : Byte) : (aluXor a b).toNat = a.toNat ^^^ b.toNat := BitVec.toNat_xor a b

theorem predBE_iff (cr : Byte) : predBE cr = true ↔ cr.toNat = 0 := by
  simp [predBE, BitVec.toNat_eq]

theorem predBNE_iff (cr : Byte) : predBNE cr = true ↔ cr.toNat ≠ 0 := by
  simp [predBNE, BitVec.toNat_eq]

theorem predBG_iff (cr : Byte) : predBG cr = true ↔ cr.toNat < 128 := by
  simp [predBG]

theorem predBL_iff (cr : Byte) : predBL cr = true ↔ cr.toNat > 127 := by
  simp [predBL]

end Sys2Proof.Machine
end

