-- ==== Sys2Proof/Laws/Decoding.lean ====
section
/-! SUPPORT. Laws/Decoding.lean: the decoder's parts, for any OPCODE_MAP. -/

namespace Sys2Proof

/-- Every operation is listed. -/
theorem Operation.mem_all (op : Operation) : op ∈ Operation.all := by
  cases op <;> decide

/-- The operation found has the family code looked for. -/
theorem findOp_some {m : OpcodeMap} {fam : Byte} {op : Operation} (h : findOp m fam = some op) : m op = fam := by
  simpa using List.find?_some h

/-- Where no operation is found, none has the code. -/
theorem findOp_none {m : OpcodeMap} {fam : Byte} : findOp m fam = none ↔ ∀ op, m op ≠ fam := by
  simp [findOp, List.find?_eq_none, Operation.mem_all]

/-- K2 makes the operation found the one whose code it is (30_encoding.md R48, "unique by K2"). -/
theorem findOp_code {m : OpcodeMap} (hm : m.Admissible) (op : Operation) : findOp m (m op) = some op := by
  cases h : findOp m (m op) with
  | none => exact absurd rfl (findOp_none.mp h op)
  | some op' => rw [hm.injective _ _ (findOp_some h)]

/-- A byte with bit 0 clear is its own family code. -/
theorem familyOf_of_even : ∀ b : Byte, b &&& 0x01 = 0x00 → familyOf b = b := by decide

/-- Setting bit 0 leaves the family code. -/
theorem familyOf_or_one : ∀ b : Byte, familyOf (b ||| 0x01) = familyOf b := by decide

/-- A byte with bit 0 clear has register mode. -/
theorem modeOf_of_even : ∀ b : Byte, b &&& 0x01 = 0x00 → modeOf b = .registerOperand := by decide

/-- A byte with bit 0 set has immediate mode. -/
theorem modeOf_or_one : ∀ b : Byte, modeOf (b ||| 0x01) = .immediateOperand := by decide

/-- The opcode of a register-mode record decodes to its operation. -/
theorem decodeOp_code {m : OpcodeMap} (hm : m.Admissible) (op : Operation) : decodeOp m (m op) = .ok (op, .registerOperand) := by
  unfold decodeOp
  rw [familyOf_of_even _ (hm.modeBitClear op), findOp_code hm, modeOf_of_even _ (hm.modeBitClear op)]

/-- The opcode of an immediate-mode record decodes to its operation. -/
theorem decodeOp_code_or_one {m : OpcodeMap} (hm : m.Admissible) (op : Operation) :
    decodeOp m (m op ||| 0x01) = .ok (op, .immediateOperand) := by
  unfold decodeOp
  rw [familyOf_or_one, familyOf_of_even _ (hm.modeBitClear op), findOp_code hm, modeOf_or_one]

/-- What an accepted opcode byte says. -/
theorem decodeOp_ok {m : OpcodeMap} {b : Byte} {op : Operation} {mode : Mode} (h : decodeOp m b = .ok (op, mode)) :
    m op = familyOf b ∧ mode = modeOf b := by
  unfold decodeOp at h
  split at h
  · next hf => cases h; exact ⟨findOp_some hf, rfl⟩
  · cases h

/-- The only rejection is InvalidOpcode. -/
theorem decodeOp_error {m : OpcodeMap} {b : Byte} {k : FaultKind} (h : decodeOp m b = .error k) :
    k = .invalidOpcode ∧ ∀ op, m op ≠ familyOf b := by
  unfold decodeOp at h
  split at h
  · cases h
  · next hf => cases h; exact ⟨rfl, findOp_none.mp hf⟩

/-- What an accepted record says. -/
theorem decodeRecord_ok {m : OpcodeMap} {rec : Record} {i : Instr} (h : decodeRecord m rec = .ok i) :
    ∃ op, decodeOp m rec.opcode = .ok (op, modeOf rec.opcode) ∧ i = makeInstr op (modeOf rec.opcode) rec.left rec.right := by
  unfold decodeRecord at h
  split at h
  · next op mode hd =>
    cases h
    obtain ⟨-, rfl⟩ := decodeOp_ok hd
    exact ⟨op, hd, rfl⟩
  · cases h

/-- A rejected record has an illegal opcode byte, and the rejection is InvalidOpcode. -/
theorem decodeRecord_error {m : OpcodeMap} {rec : Record} {k : FaultKind} (h : decodeRecord m rec = .error k) :
    k = .invalidOpcode ∧ ∀ op, m op ≠ familyOf rec.opcode := by
  unfold decodeRecord at h
  split at h
  · cases h
  · next k' hd => cases h; exact decodeOp_error hd

/-- The instruction made has the operation asked for. -/
@[simp] theorem makeInstr_op (op : Operation) (mode : Mode) (l r : Byte) : (makeInstr op mode l r).op = op := by
  cases op <;> cases mode <;> rfl

/-- The instruction made has the left byte given. -/
@[simp] theorem makeInstr_left (op : Operation) (mode : Mode) (l r : Byte) : (makeInstr op mode l r).left = l := by
  cases op <;> cases mode <;> rfl

end Sys2Proof
end

