-- ==== Sys2Proof/Laws/State.lean ====
section
/-! SUPPORT. Laws/State.lean: one lemma per field per update of State. -/

namespace Sys2Proof.Machine

/-! advancePc -/

@[simp] theorem State.advancePc_gp (s : State) : (s.advancePc).gp = s.gp := rfl
@[simp] theorem State.advancePc_bt (s : State) : (s.advancePc).bt = s.bt := rfl
@[simp] theorem State.advancePc_dp (s : State) : (s.advancePc).dp = s.dp := rfl
@[simp] theorem State.advancePc_pc (s : State) : (s.advancePc).pc = s.pc + 1 := rfl
@[simp] theorem State.advancePc_cr (s : State) : (s.advancePc).cr = s.cr := rfl
@[simp] theorem State.advancePc_status (s : State) : (s.advancePc).status = s.status := rfl
@[simp] theorem State.advancePc_image (s : State) : (s.advancePc).image = s.image := rfl
@[simp] theorem State.advancePc_schedule (s : State) : (s.advancePc).schedule = s.schedule := rfl
@[simp] theorem State.advancePc_frames (s : State) : (s.advancePc).frames = s.frames := rfl

/-! raise -/

@[simp] theorem State.raise_gp (s : State) (k : FaultKind) : (s.raise k).gp = s.gp := rfl
@[simp] theorem State.raise_bt (s : State) (k : FaultKind) : (s.raise k).bt = s.bt := rfl
@[simp] theorem State.raise_dp (s : State) (k : FaultKind) : (s.raise k).dp = s.dp := rfl
@[simp] theorem State.raise_pc (s : State) (k : FaultKind) : (s.raise k).pc = s.pc := rfl
@[simp] theorem State.raise_cr (s : State) (k : FaultKind) : (s.raise k).cr = s.cr := rfl
@[simp] theorem State.raise_status (s : State) (k : FaultKind) : (s.raise k).status = .faulted k := rfl
@[simp] theorem State.raise_image (s : State) (k : FaultKind) : (s.raise k).image = s.image := rfl
@[simp] theorem State.raise_schedule (s : State) (k : FaultKind) : (s.raise k).schedule = s.schedule := rfl
@[simp] theorem State.raise_frames (s : State) (k : FaultKind) : (s.raise k).frames = s.frames := rfl

/-! resetCells -/

@[simp] theorem State.resetCells_gp (s : State) (regs : ResetRegs) : (s.resetCells regs).gp = regs.gp := rfl
@[simp] theorem State.resetCells_bt (s : State) (regs : ResetRegs) : (s.resetCells regs).bt = regs.bt := rfl
@[simp] theorem State.resetCells_dp (s : State) (regs : ResetRegs) : (s.resetCells regs).dp = regs.dp := rfl
@[simp] theorem State.resetCells_pc (s : State) (regs : ResetRegs) : (s.resetCells regs).pc = resetPc := rfl
@[simp] theorem State.resetCells_cr (s : State) (regs : ResetRegs) : (s.resetCells regs).cr = regs.cr := rfl
@[simp] theorem State.resetCells_status (s : State) (regs : ResetRegs) : (s.resetCells regs).status = .running := rfl
@[simp] theorem State.resetCells_image (s : State) (regs : ResetRegs) : (s.resetCells regs).image = s.image := rfl
@[simp] theorem State.resetCells_schedule (s : State) (regs : ResetRegs) : (s.resetCells regs).schedule = s.schedule := rfl
@[simp] theorem State.resetCells_frames (s : State) (regs : ResetRegs) : (s.resetCells regs).frames = s.frames := rfl

/-! btWrite -/

@[simp] theorem State.btWrite_gp (s : State) (i : Fin 2) (v : Byte) : (s.btWrite i v).gp = s.gp := rfl
@[simp] theorem State.btWrite_bt (s : State) (i : Fin 2) (v : Byte) : (s.btWrite i v).bt = s.bt.set i v := rfl
@[simp] theorem State.btWrite_dp (s : State) (i : Fin 2) (v : Byte) : (s.btWrite i v).dp = s.dp := rfl
@[simp] theorem State.btWrite_pc (s : State) (i : Fin 2) (v : Byte) : (s.btWrite i v).pc = s.pc := rfl
@[simp] theorem State.btWrite_cr (s : State) (i : Fin 2) (v : Byte) : (s.btWrite i v).cr = s.cr := rfl
@[simp] theorem State.btWrite_status (s : State) (i : Fin 2) (v : Byte) : (s.btWrite i v).status = s.status := rfl
@[simp] theorem State.btWrite_image (s : State) (i : Fin 2) (v : Byte) : (s.btWrite i v).image = s.image := rfl
@[simp] theorem State.btWrite_schedule (s : State) (i : Fin 2) (v : Byte) : (s.btWrite i v).schedule = s.schedule := rfl
@[simp] theorem State.btWrite_frames (s : State) (i : Fin 2) (v : Byte) : (s.btWrite i v).frames = s.frames := rfl

/-! poll -/

@[simp] theorem State.poll_gp (s : State) (b0 b1 : Bool) : (s.poll b0 b1).gp = s.gp := rfl
@[simp] theorem State.poll_bt (s : State) (b0 b1 : Bool) : (s.poll b0 b1).bt = (s.bt.set 0 (pressByte b0)).set 1 (pressByte b1) := rfl
@[simp] theorem State.poll_dp (s : State) (b0 b1 : Bool) : (s.poll b0 b1).dp = s.dp := rfl
@[simp] theorem State.poll_pc (s : State) (b0 b1 : Bool) : (s.poll b0 b1).pc = s.pc := rfl
@[simp] theorem State.poll_cr (s : State) (b0 b1 : Bool) : (s.poll b0 b1).cr = s.cr := rfl
@[simp] theorem State.poll_status (s : State) (b0 b1 : Bool) : (s.poll b0 b1).status = s.status := rfl
@[simp] theorem State.poll_image (s : State) (b0 b1 : Bool) : (s.poll b0 b1).image = s.image := rfl
@[simp] theorem State.poll_schedule (s : State) (b0 b1 : Bool) : (s.poll b0 b1).schedule = s.schedule := rfl
@[simp] theorem State.poll_frames (s : State) (b0 b1 : Bool) : (s.poll b0 b1).frames = s.frames := rfl

/-! render -/

@[simp] theorem State.render_gp (s : State) : (s.render).gp = s.gp := rfl
@[simp] theorem State.render_bt (s : State) : (s.render).bt = s.bt := rfl
@[simp] theorem State.render_dp (s : State) : (s.render).dp = s.dp := rfl
@[simp] theorem State.render_pc (s : State) : (s.render).pc = s.pc := rfl
@[simp] theorem State.render_cr (s : State) : (s.render).cr = s.cr := rfl
@[simp] theorem State.render_status (s : State) : (s.render).status = s.status := rfl
@[simp] theorem State.render_image (s : State) : (s.render).image = s.image := rfl
@[simp] theorem State.render_schedule (s : State) : (s.render).schedule = s.schedule := rfl
@[simp] theorem State.render_frames (s : State) : (s.render).frames = s.frames ++ [s.dp] := rfl

/-! withRecord -/

@[simp] theorem State.withRecord_gp (s : State) (rec : Record) : (s.withRecord rec).gp = s.gp := rfl
@[simp] theorem State.withRecord_bt (s : State) (rec : Record) : (s.withRecord rec).bt = s.bt := rfl
@[simp] theorem State.withRecord_dp (s : State) (rec : Record) : (s.withRecord rec).dp = s.dp := rfl
@[simp] theorem State.withRecord_pc (s : State) (rec : Record) : (s.withRecord rec).pc = s.pc := rfl
@[simp] theorem State.withRecord_cr (s : State) (rec : Record) : (s.withRecord rec).cr = s.cr := rfl
@[simp] theorem State.withRecord_status (s : State) (rec : Record) : (s.withRecord rec).status = .running := rfl
@[simp] theorem State.withRecord_image (s : State) (rec : Record) : (s.withRecord rec).image = placeRecord s.image s.hostTurn.pc.toNat rec := rfl
@[simp] theorem State.withRecord_schedule (s : State) (rec : Record) : (s.withRecord rec).schedule = s.schedule := rfl
@[simp] theorem State.withRecord_frames (s : State) (rec : Record) : (s.withRecord rec).frames = s.frames := rfl

/-! withFrames -/

@[simp] theorem State.withFrames_gp (s : State) (fs : List (Vector Byte 4)) : (s.withFrames fs).gp = s.gp := rfl
@[simp] theorem State.withFrames_bt (s : State) (fs : List (Vector Byte 4)) : (s.withFrames fs).bt = s.bt := rfl
@[simp] theorem State.withFrames_dp (s : State) (fs : List (Vector Byte 4)) : (s.withFrames fs).dp = s.dp := rfl
@[simp] theorem State.withFrames_pc (s : State) (fs : List (Vector Byte 4)) : (s.withFrames fs).pc = s.pc := rfl
@[simp] theorem State.withFrames_cr (s : State) (fs : List (Vector Byte 4)) : (s.withFrames fs).cr = s.cr := rfl
@[simp] theorem State.withFrames_status (s : State) (fs : List (Vector Byte 4)) : (s.withFrames fs).status = s.status := rfl
@[simp] theorem State.withFrames_image (s : State) (fs : List (Vector Byte 4)) : (s.withFrames fs).image = s.image := rfl
@[simp] theorem State.withFrames_schedule (s : State) (fs : List (Vector Byte 4)) : (s.withFrames fs).schedule = s.schedule := rfl
@[simp] theorem State.withFrames_frames (s : State) (fs : List (Vector Byte 4)) : (s.withFrames fs).frames = fs := rfl

/-! withRun -/

@[simp] theorem State.withRun_gp (s : State) (im : List Record) (sch : HostSchedule) (fs : List (Vector Byte 4)) : (s.withRun im sch fs).gp = s.gp := rfl
@[simp] theorem State.withRun_bt (s : State) (im : List Record) (sch : HostSchedule) (fs : List (Vector Byte 4)) : (s.withRun im sch fs).bt = s.bt := rfl
@[simp] theorem State.withRun_dp (s : State) (im : List Record) (sch : HostSchedule) (fs : List (Vector Byte 4)) : (s.withRun im sch fs).dp = s.dp := rfl
@[simp] theorem State.withRun_pc (s : State) (im : List Record) (sch : HostSchedule) (fs : List (Vector Byte 4)) : (s.withRun im sch fs).pc = s.pc := rfl
@[simp] theorem State.withRun_cr (s : State) (im : List Record) (sch : HostSchedule) (fs : List (Vector Byte 4)) : (s.withRun im sch fs).cr = s.cr := rfl
@[simp] theorem State.withRun_status (s : State) (im : List Record) (sch : HostSchedule) (fs : List (Vector Byte 4)) : (s.withRun im sch fs).status = s.status := rfl
@[simp] theorem State.withRun_image (s : State) (im : List Record) (sch : HostSchedule) (fs : List (Vector Byte 4)) : (s.withRun im sch fs).image = im := rfl
@[simp] theorem State.withRun_schedule (s : State) (im : List Record) (sch : HostSchedule) (fs : List (Vector Byte 4)) : (s.withRun im sch fs).schedule = sch := rfl
@[simp] theorem State.withRun_frames (s : State) (im : List Record) (sch : HostSchedule) (fs : List (Vector Byte 4)) : (s.withRun im sch fs).frames = fs := rfl

/-! withSchedule -/

@[simp] theorem State.withSchedule_gp (s : State) (sch : HostSchedule) : (s.withSchedule sch).gp = s.gp := rfl
@[simp] theorem State.withSchedule_bt (s : State) (sch : HostSchedule) : (s.withSchedule sch).bt = s.bt := rfl
@[simp] theorem State.withSchedule_dp (s : State) (sch : HostSchedule) : (s.withSchedule sch).dp = s.dp := rfl
@[simp] theorem State.withSchedule_pc (s : State) (sch : HostSchedule) : (s.withSchedule sch).pc = s.pc := rfl
@[simp] theorem State.withSchedule_cr (s : State) (sch : HostSchedule) : (s.withSchedule sch).cr = s.cr := rfl
@[simp] theorem State.withSchedule_status (s : State) (sch : HostSchedule) : (s.withSchedule sch).status = s.status := rfl
@[simp] theorem State.withSchedule_image (s : State) (sch : HostSchedule) : (s.withSchedule sch).image = s.image := rfl
@[simp] theorem State.withSchedule_schedule (s : State) (sch : HostSchedule) : (s.withSchedule sch).schedule = sch := rfl
@[simp] theorem State.withSchedule_frames (s : State) (sch : HostSchedule) : (s.withSchedule sch).frames = s.frames := rfl

/-! mapState -/

@[simp] theorem mapState_next (f : State → State) (s : State) : mapState f (.next s) = .next (f s) := rfl
@[simp] theorem mapState_stoppedFaulted (f : State → State) (k : FaultKind) (s : State) :
    mapState f (.fault (.stoppedFaulted k s)) = .fault (.stoppedFaulted k (f s)) := rfl
@[simp] theorem mapState_stoppedEnded (f : State → State) (s : State) :
    mapState f (.fault (.stoppedEnded s)) = .fault (.stoppedEnded (f s)) := rfl
@[simp] theorem mapState_runEnded (f : State → State) (s : State) :
    mapState f (.fault (.runEnded s)) = .fault (.runEnded (f s)) := rfl
@[simp] theorem mapState_refused (f : State → State) (r : Refusal) : mapState f (.refused r) = .refused r := rfl

/-! final -/

@[simp] theorem Fault.final_stoppedFaulted (k : FaultKind) (s : State) : (Fault.stoppedFaulted k s).final = s := rfl
@[simp] theorem Fault.final_stoppedEnded (s : State) : (Fault.stoppedEnded s).final = s := rfl
@[simp] theorem Fault.final_runEnded (s : State) : (Fault.runEnded s).final = s := rfl
@[simp] theorem Fault.final_mapFinal (f : State → State) (r : Fault) : (r.mapFinal f).final = f r.final := by
  cases r <;> rfl

/-! setValue -/

@[simp] theorem State.setValue_status (s : State) (c : Cell) (v : Byte) : (s.setValue c v).status = s.status := by
  cases c <;> rfl
@[simp] theorem State.setValue_image (s : State) (c : Cell) (v : Byte) : (s.setValue c v).image = s.image := by
  cases c <;> rfl
@[simp] theorem State.setValue_schedule (s : State) (c : Cell) (v : Byte) : (s.setValue c v).schedule = s.schedule := by
  cases c <;> rfl
@[simp] theorem State.setValue_frames (s : State) (c : Cell) (v : Byte) : (s.setValue c v).frames = s.frames := by
  cases c <;> rfl

/-! value, cell by cell -/

@[simp] theorem State.value_general (s : State) (i : Fin 8) : s.value (.general i) = s.gp[i] := rfl
@[simp] theorem State.value_button (s : State) (i : Fin 2) : s.value (.button i) = s.bt[i] := rfl
@[simp] theorem State.value_display (s : State) (i : Fin 4) : s.value (.display i) = s.dp[i] := rfl
@[simp] theorem State.value_programCounter (s : State) : s.value .programCounter = s.pc := rfl
@[simp] theorem State.value_conditionResult (s : State) : s.value .conditionResult = s.cr := rfl

end Sys2Proof.Machine
end

