-- ==== Sys2Proof/Laws/Registers.lean ====
section
/-! SUPPORT. Laws/Registers.lean: the register file: read after write, the address decoder, Load and Store. -/

namespace Sys2Proof.Machine

/-! ## Cells -/

/-- A cell read after it is written holds the value written. -/
@[simp] theorem State.value_setValue_self (s : State) (c : Cell) (v : Byte) : (s.setValue c v).value c = v := by
  cases c <;> simp [State.setValue, State.value]

/-- A write leaves every other cell alone. -/
theorem State.value_setValue_of_ne (s : State) (c c' : Cell) (v : Byte) (h : c' ≠ c) : (s.setValue c v).value c' = s.value c' := by
  cases c <;> cases c' <;> simp only [State.setValue, State.value, Fin.getElem_fin] <;>
    first
    | rfl
    | exact absurd rfl h
    | (apply Vector.getElem_set_ne
       intro hi
       exact h (by simp [Fin.ext_iff, hi]))

/-- Writing a cell, written out: the PC afterwards. -/
@[simp] theorem State.setValue_pc_self (s : State) (v : Byte) : (s.setValue .programCounter v).pc = v := rfl

/-- Writing another cell leaves PC alone. -/
theorem State.setValue_pc_of_ne (s : State) (c : Cell) (v : Byte) (h : c ≠ .programCounter) : (s.setValue c v).pc = s.pc :=
  State.value_setValue_of_ne s c .programCounter v (Ne.symm h)

/-- Writing another cell leaves CR alone. -/
theorem State.setValue_cr_of_ne (s : State) (c : Cell) (v : Byte) (h : c ≠ .conditionResult) : (s.setValue c v).cr = s.cr :=
  State.value_setValue_of_ne s c .conditionResult v (Ne.symm h)

/-- Raising a fault changes no cell. -/
@[simp] theorem State.value_raise (s : State) (k : FaultKind) (c : Cell) : (s.raise k).value c = s.value c := by
  cases c <;> rfl

/-- A step's reads see the values of the working copy with PC advanced. -/
@[simp] theorem State.value_advancePc (s : State) (c : Cell) : s.advancePc.value c = s.seen c := by
  cases c <;> rfl

/-- A step's reads see the old value of every cell but PC. -/
theorem State.seen_of_ne (s : State) (c : Cell) (h : c ≠ .programCounter) : s.seen c = s.value c := by
  cases c <;> first | rfl | exact absurd rfl h

/-- Two states that agree on every cell and outside the register file are the same state. -/
theorem State.eq_of_values {s t : State} (hv : ∀ c, s.value c = t.value c) (hs : s.status = t.status) (hi : s.image = t.image)
    (hh : s.schedule = t.schedule) (hf : s.frames = t.frames) : s = t := by
  have hgp : s.gp = t.gp := Vector.ext fun i h => hv (.general ⟨i, h⟩)
  have hbt : s.bt = t.bt := Vector.ext fun i h => hv (.button ⟨i, h⟩)
  have hdp : s.dp = t.dp := Vector.ext fun i h => hv (.display ⟨i, h⟩)
  exact State.ext hgp hbt hdp (hv .programCounter) (hv .conditionResult) hs hi hh hf

/-! ## The address decoder -/

/-- The decoder gives each cell back from its address. -/
@[simp] theorem decodeAddr_address (c : Cell) : decodeAddr c.address = some c := by
  cases c with
  | general i => revert i; decide
  | button i => revert i; decide
  | display i => revert i; decide
  | programCounter => rfl
  | conditionResult => rfl

/-- An address that decodes to a cell is that cell's address. -/
theorem address_of_decodeAddr {a : Byte} {c : Cell} (h : decodeAddr a = some c) : c.address = a := by
  have all : ∀ a : Byte, ((decodeAddr a).map Cell.address).all (· == a) = true := by decide
  have := all a
  simpa [h] using this

/-- Two addresses of one cell are one address. -/
theorem decodeAddr_injective {a b : Byte} {c : Cell} (ha : decodeAddr a = some c) (hb : decodeAddr b = some c) : a = b :=
  (address_of_decodeAddr ha).symm.trans (address_of_decodeAddr hb)

/-- CR's address. -/
@[simp] theorem decodeAddr_crAddr : decodeAddr crAddr = some .conditionResult := rfl

/-- PC's address. -/
@[simp] theorem decodeAddr_pcAddr : decodeAddr pcAddr = some .programCounter := rfl

/-! ## Load, Store, resolve -/

theorem State.load_some {a : Byte} {c : Cell} (s : State) (h : decodeAddr a = some c) : s.load a = .ok (s.value c) := by
  simp [State.load, h]

theorem State.load_none {a : Byte} (s : State) (h : decodeAddr a = none) : s.load a = .error .invalidRegisterAddress := by
  simp [State.load, h]

theorem State.store_some {a : Byte} {c : Cell} (s : State) (v : Byte) (h : decodeAddr a = some c) :
    s.store a v = .ok (s.setValue c v) := by
  simp [State.store, h]

theorem State.store_none {a : Byte} (s : State) (v : Byte) (h : decodeAddr a = none) :
    s.store a v = .error .invalidRegisterAddress := by
  simp [State.store, h]

/-- CMP's write goes to CR and cannot fail. -/
@[simp] theorem State.store_crAddr (s : State) (v : Byte) : s.store crAddr v = .ok (s.setValue .conditionResult v) := rfl

/-- Resolving inside a step: the value `rightSeen` names, or the fault. -/
theorem State.resolve_advancePc (s : State) (m : Mode) (r : Byte) :
    s.advancePc.resolve m r = match s.rightSeen m r with
      | some b => .ok b
      | none => .error .invalidRegisterAddress := by
  cases m with
  | immediateOperand => rfl
  | registerOperand =>
    simp only [State.resolve, State.load, State.rightSeen]
    cases decodeAddr r <;> simp

/-- Loading inside a step. -/
theorem State.load_advancePc (s : State) (a : Byte) :
    s.advancePc.load a = match decodeAddr a with
      | some c => .ok (s.seen c)
      | none => .error .invalidRegisterAddress := by
  cases h : decodeAddr a <;> simp [State.load, h]

/-- A write on the working copy is the whole effect `WroteCell` names. -/
theorem wroteCell_setValue (s : State) (c : Cell) (v : Byte) : WroteCell s (s.advancePc.setValue c v) c v where
  written := by simp
  advanced h := by rw [State.setValue_pc_of_ne _ _ _ h]; rfl
  others c' hc hp := by rw [State.value_setValue_of_ne _ _ _ _ hc, State.value_advancePc, State.seen_of_ne _ _ hp]
  status := by simp
  image := by simp
  schedule := by simp
  frames := by simp

/-- `WroteCell` leaves nothing open: it determines the state after the step. -/
theorem WroteCell.eq {s t : State} {c : Cell} {v : Byte} (h : WroteCell s t c v) : t = s.advancePc.setValue c v := by
  have h' := wroteCell_setValue s c v
  refine State.eq_of_values (fun c' => ?_) (h.status.trans h'.status.symm) (h.image.trans h'.image.symm)
    (h.schedule.trans h'.schedule.symm) (h.frames.trans h'.frames.symm)
  by_cases hc : c' = c
  · rw [hc, h.written, h'.written]
  · by_cases hp : c' = .programCounter
    · subst hp
      exact (h.advanced (Ne.symm hc)).trans (h'.advanced (Ne.symm hc)).symm
    · rw [h.others c' hc hp, h'.others c' hc hp]

end Sys2Proof.Machine
end

