-- ==== Sys2Proof/Laws/Exec.lean ====
section
/-! SUPPORT. Laws/Exec.lean: what the shared operations of the meanings can do, said once; the meanings cite these. -/

namespace Sys2Proof.Machine

/-! ## Fields under commit -/

@[simp] theorem State.commit_ok (s w : State) : s.commit (.ok w) = .next w := rfl
@[simp] theorem State.commit_error (s : State) (k : FaultKind) : s.commit (.error k) = .next (s.raise k) := rfl

/-! ## The ALU operations, CMP, MOV and the branches: completion -/

/-- An ALU step on readable operands writes the result and nothing else. -/
theorem aluStep_ok {f : Byte → Byte → Byte} {m : Mode} {l r b : Byte} {c : Cell} {s : State} (hl : decodeAddr l = some c)
    (hr : s.rightSeen m r = some b) : aluStep f m l r s = .next (s.advancePc.setValue c (f (s.seen c) b)) := by
  simp [aluStep, State.load_advancePc, State.resolve_advancePc, State.store_some _ _ hl, hl, hr, bind, Except.bind]

/-- An ALU step on an unreadable operand faults. -/
theorem aluStep_fault {f : Byte → Byte → Byte} {m : Mode} {l r : Byte} {s : State}
    (h : decodeAddr l = none ∨ s.rightSeen m r = none) : aluStep f m l r s = .next (s.raise .invalidRegisterAddress) := by
  cases hl : decodeAddr l with
  | none => simp [aluStep, State.load_advancePc, hl, bind, Except.bind]
  | some c =>
    have hr : s.rightSeen m r = none := by simpa [hl] using h
    simp [aluStep, State.load_advancePc, State.resolve_advancePc, hl, hr, bind, Except.bind]

/-- A CMP step on readable operands writes the difference into CR and nothing else. -/
theorem cmpStep_ok {m : Mode} {l r b : Byte} {c : Cell} {s : State} (hl : decodeAddr l = some c) (hr : s.rightSeen m r = some b) :
    cmpStep m l r s = .next (s.advancePc.setValue .conditionResult (compareDiff (s.seen c) b)) := by
  simp [cmpStep, State.load_advancePc, State.resolve_advancePc, hl, hr, bind, Except.bind]

/-- A CMP step on an unreadable operand faults. -/
theorem cmpStep_fault {m : Mode} {l r : Byte} {s : State} (h : decodeAddr l = none ∨ s.rightSeen m r = none) :
    cmpStep m l r s = .next (s.raise .invalidRegisterAddress) := by
  cases hl : decodeAddr l with
  | none => simp [cmpStep, State.load_advancePc, hl, bind, Except.bind]
  | some c =>
    have hr : s.rightSeen m r = none := by simpa [hl] using h
    simp [cmpStep, State.load_advancePc, State.resolve_advancePc, hl, hr, bind, Except.bind]

/-- A MOV step with a readable source and a valid destination writes the source's value and nothing else. -/
theorem movStep_ok {m : Mode} {l r b : Byte} {c : Cell} {s : State} (hl : decodeAddr l = some c) (hr : s.rightSeen m r = some b) :
    movStep m l r s = .next (s.advancePc.setValue c b) := by
  simp [movStep, State.resolve_advancePc, State.store_some _ _ hl, hr, bind, Except.bind]

/-- A MOV step with an unreadable source or an invalid destination faults. -/
theorem movStep_fault {m : Mode} {l r : Byte} {s : State} (h : decodeAddr l = none ∨ s.rightSeen m r = none) :
    movStep m l r s = .next (s.raise .invalidRegisterAddress) := by
  cases hr : s.rightSeen m r with
  | none => simp [movStep, State.resolve_advancePc, hr, bind, Except.bind]
  | some b =>
    have hl : decodeAddr l = none := by simpa [hr] using h
    simp [movStep, State.resolve_advancePc, State.store_none _ _ hl, hr, bind, Except.bind]

/-- A branch step sets PC to the target or to the advanced PC, and changes nothing else. -/
theorem branchStep_eq (pred : Byte → Bool) (t : Byte) (s : State) :
    branchStep pred t s = .next { s with pc := if pred s.cr then t else s.pc + 1 } := by
  by_cases h : pred s.cr = true <;> simp [branchStep, State.advancePc, h]

/-! ## One spec lemma for all instructions -/

/-- The right operand reads as a value unless its register address is invalid. -/
theorem State.rightSeen_eq_none {s : State} {m : Mode} {r : Byte} :
    s.rightSeen m r = none ↔ m = .registerOperand ∧ decodeAddr r = none := by
  cases m <;> simp [State.rightSeen]

/-- Everything an ALU, CMP or MOV step can do. -/
theorem step_cases_of {X : Host.Outcome State Fault Refusal} {s : State} {l r : Byte} {m : Mode} {dest : Option Cell}
    (ok : ∀ c b, decodeAddr l = some c → s.rightSeen m r = some b → ∃ d v, dest = some d ∧ X = .next (s.advancePc.setValue d v))
    (bad : decodeAddr l = none ∨ s.rightSeen m r = none → X = .next (s.raise .invalidRegisterAddress)) :
    (((decodeAddr l).isNone || s.rightSeen m r == none) = false ∧ ∃ d v, dest = some d ∧ X = .next (s.advancePc.setValue d v)) ∨
    (((decodeAddr l).isNone || s.rightSeen m r == none) = true ∧ X = .next (s.raise .invalidRegisterAddress)) := by
  cases hl : decodeAddr l with
  | none => exact .inr ⟨by simp, bad (.inl hl)⟩
  | some c =>
    cases hr : s.rightSeen m r with
    | none => exact .inr ⟨by simp, bad (.inr hr)⟩
    | some b => exact .inl ⟨by simp, ok c b hl hr⟩

/-- What an instruction with a right operand does, its outcome `X`: one write, or the fault. -/
def DataCases (i : Instr) (s : State) (X : Host.Outcome State Fault Refusal) : Prop :=
  (hasInvalidAddress i = false ∧ ∃ d v, destination i = some d ∧ X = .next (s.advancePc.setValue d v)) ∨
  (hasInvalidAddress i = true ∧ X = .next (s.raise .invalidRegisterAddress))

theorem aluStep_cases {i : Instr} (f : Byte → Byte → Byte) (m : Mode) (r : Byte) (s : State) (hc : i.op.opClass = .alu)
    (ho : i.rightOperand = some (m, r)) : DataCases i s (aluStep f m i.left r s) := by
  have := step_cases_of (X := aluStep f m i.left r s) (dest := destination i)
    (fun c b hl hr => ⟨c, _, by simp [destination, hc, hl], aluStep_ok hl hr⟩) aluStep_fault
  cases m <;> simpa [DataCases, hasInvalidAddress, Instr.isBranch, hc, Instr.rightAddr?, ho, State.rightSeen, Option.isNone_iff_eq_none] using this

theorem cmpStep_cases {i : Instr} (m : Mode) (r : Byte) (s : State) (hc : i.op.opClass = .compare)
    (ho : i.rightOperand = some (m, r)) : DataCases i s (cmpStep m i.left r s) := by
  have := step_cases_of (X := cmpStep m i.left r s) (dest := destination i)
    (fun c b hl hr => ⟨_, _, by simp [destination, hc], cmpStep_ok hl hr⟩) cmpStep_fault
  cases m <;> simpa [DataCases, hasInvalidAddress, Instr.isBranch, hc, Instr.rightAddr?, ho, State.rightSeen, Option.isNone_iff_eq_none] using this

theorem movStep_cases {i : Instr} (m : Mode) (r : Byte) (s : State) (hc : i.op.opClass = .move)
    (ho : i.rightOperand = some (m, r)) : DataCases i s (movStep m i.left r s) := by
  have := step_cases_of (X := movStep m i.left r s) (dest := destination i)
    (fun c b hl hr => ⟨c, _, by simp [destination, hc, hl], movStep_ok hl hr⟩) movStep_fault
  cases m <;> simpa [DataCases, hasInvalidAddress, Instr.isBranch, hc, Instr.rightAddr?, ho, State.rightSeen, Option.isNone_iff_eq_none] using this

/-- An instruction that is no branch writes its destination or faults. -/
theorem exec_data_cases (i : Instr) (s : State) (h : i.isBranch = false) : DataCases i s (exec i s) := by
  cases i <;> first
    | (simp [Instr.isBranch, Instr.op, Operation.opClass] at h; done)
    | exact aluStep_cases _ _ _ s rfl rfl
    | exact cmpStep_cases _ _ s rfl rfl
    | exact movStep_cases _ _ s rfl rfl

/-- The predicate of each branch. -/
def predOf : Operation → Byte → Bool
  | .be => predBE
  | .bne => predBNE
  | .bg => predBG
  | .bl => predBL
  | _ => predBR

/-- A branch sets PC and changes nothing else. -/
theorem exec_branch (i : Instr) (s : State) (h : i.isBranch = true) :
    exec i s = .next { s with pc := if predOf i.op s.cr then i.left else s.pc + 1 } := by
  cases i <;> first
    | (simp [Instr.isBranch, Instr.op, Operation.opClass] at h; done)
    | exact branchStep_eq _ _ s

/-- Everything an instruction can do: one write with PC advanced, a branch's PC, or the one fault. -/
theorem exec_cases (i : Instr) (s : State) :
    (hasInvalidAddress i = false ∧ i.isBranch = false ∧ ∃ d v, destination i = some d ∧ exec i s = .next (s.advancePc.setValue d v)) ∨
    (i.isBranch = true ∧ exec i s = .next { s with pc := if predOf i.op s.cr then i.left else s.pc + 1 }) ∨
    (hasInvalidAddress i = true ∧ i.isBranch = false ∧ exec i s = .next (s.raise .invalidRegisterAddress)) := by
  cases hb : i.isBranch with
  | true => exact .inr (.inl ⟨rfl, exec_branch i s hb⟩)
  | false =>
    rcases exec_data_cases i s hb with ⟨h, hx⟩ | ⟨h, hx⟩
    · exact .inl ⟨h, rfl, hx⟩
    · exact .inr (.inr ⟨h, rfl, hx⟩)

/-- A branch has no register address. -/
theorem hasInvalidAddress_branch (i : Instr) (h : i.isBranch = true) : hasInvalidAddress i = false := by
  simp [hasInvalidAddress, h]

end Sys2Proof.Machine
end

