-- ==== Sys2Proof/Laws/PerInstr.lean ====
section
/-! SUPPORT. Laws/PerInstr.lean: the family EncodeFamily, one lemma per constructor: the record of an instruction carries its operation
in the family code and its operand_left in the left byte. -/

namespace Sys2Proof.Laws.EncodeFamily

/-- Under an admissible OPCODE_MAP the record of `i` has the family code of its operation and its left byte. -/
def Statement (i : Instr) : Prop :=
  ∀ m : OpcodeMap, m.Admissible → familyOf (encode m i).opcode = m i.op ∧ (encode m i).left = i.left

theorem of_even {m : OpcodeMap} (hm : m.Admissible) (op : Operation) : familyOf (m op) = m op := familyOf_of_even _ (hm.modeBitClear op)

theorem of_odd {m : OpcodeMap} (hm : m.Admissible) (op : Operation) : familyOf (m op ||| 0x01) = m op :=
  (familyOf_or_one _).trans (of_even hm op)

theorem movReg (l r : Byte) : Statement (.movReg l r) := fun _ hm => ⟨of_even hm _, rfl⟩
theorem movImm (l k : Byte) : Statement (.movImm l k) := fun _ hm => ⟨of_odd hm _, rfl⟩
theorem addReg (l r : Byte) : Statement (.addReg l r) := fun _ hm => ⟨of_even hm _, rfl⟩
theorem addImm (l k : Byte) : Statement (.addImm l k) := fun _ hm => ⟨of_odd hm _, rfl⟩
theorem subReg (l r : Byte) : Statement (.subReg l r) := fun _ hm => ⟨of_even hm _, rfl⟩
theorem subImm (l k : Byte) : Statement (.subImm l k) := fun _ hm => ⟨of_odd hm _, rfl⟩
theorem lshReg (l r : Byte) : Statement (.lshReg l r) := fun _ hm => ⟨of_even hm _, rfl⟩
theorem lshImm (l k : Byte) : Statement (.lshImm l k) := fun _ hm => ⟨of_odd hm _, rfl⟩
theorem rshReg (l r : Byte) : Statement (.rshReg l r) := fun _ hm => ⟨of_even hm _, rfl⟩
theorem rshImm (l k : Byte) : Statement (.rshImm l k) := fun _ hm => ⟨of_odd hm _, rfl⟩
theorem andReg (l r : Byte) : Statement (.andReg l r) := fun _ hm => ⟨of_even hm _, rfl⟩
theorem andImm (l k : Byte) : Statement (.andImm l k) := fun _ hm => ⟨of_odd hm _, rfl⟩
theorem orReg (l r : Byte) : Statement (.orReg l r) := fun _ hm => ⟨of_even hm _, rfl⟩
theorem orImm (l k : Byte) : Statement (.orImm l k) := fun _ hm => ⟨of_odd hm _, rfl⟩
theorem xorReg (l r : Byte) : Statement (.xorReg l r) := fun _ hm => ⟨of_even hm _, rfl⟩
theorem xorImm (l k : Byte) : Statement (.xorImm l k) := fun _ hm => ⟨of_odd hm _, rfl⟩
theorem cmpReg (l r : Byte) : Statement (.cmpReg l r) := fun _ hm => ⟨of_even hm _, rfl⟩
theorem cmpImm (l k : Byte) : Statement (.cmpImm l k) := fun _ hm => ⟨of_odd hm _, rfl⟩
theorem br (t : Byte) : Statement (.br t) := fun _ hm => ⟨of_even hm _, rfl⟩
theorem be (t : Byte) : Statement (.be t) := fun _ hm => ⟨of_even hm _, rfl⟩
theorem bne (t : Byte) : Statement (.bne t) := fun _ hm => ⟨of_even hm _, rfl⟩
theorem bg (t : Byte) : Statement (.bg t) := fun _ hm => ⟨of_even hm _, rfl⟩
theorem bl (t : Byte) : Statement (.bl t) := fun _ hm => ⟨of_even hm _, rfl⟩

end Sys2Proof.Laws.EncodeFamily
end

