-- ==== Sys2Proof/Laws/Peripherals.lean ====
section
/-! SUPPORT. Laws/Peripherals.lean: what the host's turn can change. -/

namespace Sys2Proof.Machine

/-- What every action of kind `Q` keeps, a list of such actions keeps. -/
theorem State.act_induct {P : State → Prop} {Q : HostAction → Prop} (act : ∀ s a, Q a → P s → P (s.hostAct a)) {s : State} (h : P s)
    {actions : List HostAction} (all : ∀ a ∈ actions, Q a) : P (s.act actions) := by
  induction actions generalizing s with
  | nil => exact h
  | cons a as ih => exact ih (act s a (all a List.mem_cons_self) h) fun b hb => all b (List.mem_cons_of_mem _ hb)

/-- What every action of kind `Q` keeps, and moving on in the schedule too, a turn of such actions keeps. -/
theorem State.hostTurn_induct_of_mem {P : State → Prop} {Q : HostAction → Prop} (act : ∀ s a, Q a → P s → P (s.hostAct a))
    (move : ∀ s later, P s → P { s with schedule := later }) {s : State} (h : P s) (all : ∀ a ∈ s.comingTurn, Q a) : P s.hostTurn :=
  State.act_induct act (move s _ h) all

/-- What every host action keeps, and moving on in the schedule too, every turn keeps. -/
theorem State.hostTurn_induct {P : State → Prop} (act : ∀ s a, P s → P (s.hostAct a))
    (move : ∀ s later, P s → P { s with schedule := later }) {s : State} (h : P s) : P s.hostTurn :=
  State.hostTurn_induct_of_mem (Q := fun _ => True) (fun s a _ => act s a) move h fun _ _ => trivial

/-- A host action reads no schedule: taking it under another one changes nothing else. -/
theorem State.withSchedule_hostAct (s : State) (sch : HostSchedule) (a : HostAction) :
    (s.withSchedule sch).hostAct a = (s.hostAct a).withSchedule sch := by
  cases a <;> rfl

/-- So it is for any number of actions. -/
theorem State.withSchedule_act (s : State) (sch : HostSchedule) (as : List HostAction) :
    (s.withSchedule sch).act as = (s.act as).withSchedule sch := by
  induction as generalizing s with
  | nil => rfl
  | cons a as ih => exact (congrArg (State.act · as) (State.withSchedule_hostAct s sch a)).trans (ih (s.hostAct a))

/-- The host's turn is the coming actions, and the schedule moved on. -/
theorem State.hostTurn_eq (s : State) : s.hostTurn = (s.act s.comingTurn).withSchedule s.schedule.next.2 :=
  State.withSchedule_act s s.schedule.next.2 s.comingTurn

/-- A listed turn is the next one. -/
@[simp] theorem HostSchedule.next_listed (a : List HostAction) (as : List (List HostAction)) (tail : HostTail) :
    (HostSchedule.mk (a :: as) tail).next = (a, ⟨as, tail⟩) := rfl

/-- A repeating tail starts over. -/
@[simp] theorem HostSchedule.next_repeating (a : List HostAction) (as : List (List HostAction)) :
    (HostSchedule.mk [] (.repeating (a :: as))).next = (a, ⟨as, .repeating (a :: as)⟩) := rfl

/-- A silent tail goes on with empty turns. -/
@[simp] theorem HostSchedule.next_silent : (HostSchedule.mk [] (.repeating [])).next = ([], ⟨[], .repeating []⟩) := rfl

/-- A free tail takes the next free turn. -/
@[simp] theorem HostSchedule.next_free (n : Nat) : (HostSchedule.mk [] (.free n)).next = (freeHostTurn n, ⟨[], .free (n + 1)⟩) := rfl

/-- No host action touches the program store. -/
@[simp] theorem State.hostAct_image (s : State) (a : HostAction) : (s.hostAct a).image = s.image := by
  cases a <;> rfl

/-- No host action changes the actions to come. -/
@[simp] theorem State.hostAct_schedule (s : State) (a : HostAction) : (s.hostAct a).schedule = s.schedule := by
  cases a <;> rfl

/-- Nor does any number of them. -/
@[simp] theorem State.act_schedule (s : State) (as : List HostAction) : (s.act as).schedule = s.schedule :=
  State.act_induct (P := fun u => u.schedule = s.schedule) (Q := fun _ => True) (fun _ a _ h => (State.hostAct_schedule _ a).trans h) rfl
    fun _ _ => trivial

/-- The host's turn moves on in the schedule by one turn. -/
@[simp] theorem State.hostTurn_schedule (s : State) : s.hostTurn.schedule = s.schedule.next.2 := State.act_schedule _ _

/-- The first turn of a schedule is the coming one. -/
@[simp] theorem HostSchedule.turn_zero (sch : HostSchedule) : sch.turn 0 = sch.next.1 := rfl

/-- The turns after it are those of the schedule moved on. -/
@[simp] theorem HostSchedule.turn_succ (sch : HostSchedule) (n : Nat) : sch.turn (n + 1) = sch.next.2.turn n := rfl

/-- The host's turn leaves the program store. -/
@[simp] theorem State.hostTurn_image (s : State) : s.hostTurn.image = s.image :=
  State.hostTurn_induct (P := fun u => u.image = s.image) (fun _ a h => (State.hostAct_image _ a).trans h) (fun _ _ h => h) rfl

/-- The turn of a silent host is no turn. -/
theorem State.hostTurn_of_silent (s : State) (h : s.schedule = .silent) : s.hostTurn = s := by
  cases s
  cases h
  rfl

/-- The same state with another program store, and running. -/
def State.loadedWith (s : State) (image : List Record) : State := { s with image := image, status := .running }

/-- Loading before a host action is loading after it. -/
theorem State.loadedWith_hostAct (s : State) (image : List Record) (a : HostAction) :
    (s.loadedWith image).hostAct a = (s.hostAct a).loadedWith image := by
  cases a <;> rfl

/-- Loading before the host's turn is loading after it. -/
theorem State.loadedWith_hostTurn (s : State) (image : List Record) : (s.loadedWith image).hostTurn = s.hostTurn.loadedWith image := by
  have all : ∀ (as : List HostAction) (u : State), (u.loadedWith image).act as = (u.act as).loadedWith image := by
    intro as
    induction as with
    | nil => exact fun _ => rfl
    | cons a as ih => exact fun u => (congrArg (State.act · as) (State.loadedWith_hostAct u image a)).trans (ih (u.hostAct a))
  exact all s.comingTurn { s with schedule := s.schedule.next.2 }

end Sys2Proof.Machine
end

