-- ==== Sys2Proof/Laws/Stepping.lean ====
section
/-! SUPPORT. Laws/Stepping.lean: everything the engine's step and a turn of the run's loop can do, said once; and that a placed record is the
one the next step runs. -/

namespace Sys2Proof.Machine

/-- A legal record runs as its instruction. -/
theorem engineStep_ok {m : OpcodeMap} {rec : Record} {i : Instr} (s : State) (h : decodeRecord m rec = .ok i) :
    engineStep m rec s = exec i s := by
  simp [engineStep, h]

/-- An illegal record faults. -/
theorem engineStep_error {m : OpcodeMap} {rec : Record} {k : FaultKind} (s : State) (h : decodeRecord m rec = .error k) :
    engineStep m rec s = .next (s.raise k) := by
  simp [engineStep, h]

/-- An instruction always answers a next state. -/
theorem exec_next (i : Instr) (s : State) : ∃ t, exec i s = .next t := by
  rcases exec_cases i s with ⟨-, -, d, v, -, h⟩ | ⟨-, h⟩ | ⟨-, -, h⟩ <;> exact ⟨_, h⟩

/-- A running core with a record at PC runs it. -/
theorem fetchAndStep_fetched {m : OpcodeMap} {s : State} {rec : Record} (hr : s.status = .running) (hl : ProgramStore.wf s.image)
    (hf : s.fetch s.pc.toNat = some rec) : fetchAndStep m s = engineStep m rec s := by
  simp [fetchAndStep, hr, hf, Nat.not_lt.mpr hl]

/-- A running core with no record at PC ends, and the run stops. -/
theorem fetchAndStep_ended {m : OpcodeMap} {s : State} (hr : s.status = .running) (hl : ProgramStore.wf s.image)
    (hf : s.fetch s.pc.toNat = none) : fetchAndStep m s = .fault (.runEnded { s with status := .ended }) := by
  simp [fetchAndStep, hr, hf, Nat.not_lt.mpr hl]

/-- What the engine's step of a record can do: the fault of an illegal opcode, or the instruction. -/
theorem engineStep_next {m : OpcodeMap} {rec : Record} {s t : State} (h : engineStep m rec s = .next t) :
    (decodeRecord m rec = .error .invalidOpcode ∧ t = s.raise .invalidOpcode) ∨
    (∃ i, decodeRecord m rec = .ok i ∧ exec i s = .next t) := by
  cases hd : decodeRecord m rec with
  | error k =>
    obtain ⟨rfl, -⟩ := decodeRecord_error hd
    rw [engineStep_error s hd] at h
    cases h
    exact .inl ⟨rfl, rfl⟩
  | ok i => exact .inr ⟨i, rfl, engineStep_ok s hd ▸ h⟩

/-- Everything a turn of the loop can do: a stop with the state it found, the refusal of a long image, the end of the run, or the engine's
step of the record at PC. -/
theorem fetchAndStep_cases (m : OpcodeMap) (s : State) :
    (∃ k, s.status = .faulted k ∧ fetchAndStep m s = .fault (.stoppedFaulted k s)) ∨
    (s.status = .ended ∧ fetchAndStep m s = .fault (.stoppedEnded s)) ∨
    (s.status = .running ∧ maxRecords < s.image.length ∧ fetchAndStep m s = .refused .imageTooLong) ∨
    (s.status = .running ∧ ProgramStore.wf s.image ∧ s.fetch s.pc.toNat = none ∧
      fetchAndStep m s = .fault (.runEnded { s with status := .ended })) ∨
    (∃ rec, s.status = .running ∧ ProgramStore.wf s.image ∧ s.fetch s.pc.toNat = some rec ∧ fetchAndStep m s = engineStep m rec s) := by
  cases hs : s.status with
  | faulted k => exact .inl ⟨k, rfl, by simp [fetchAndStep, hs]⟩
  | ended => exact .inr (.inl ⟨rfl, by simp [fetchAndStep, hs]⟩)
  | running =>
    by_cases hl : maxRecords < s.image.length
    · exact .inr (.inr (.inl ⟨rfl, hl, by simp [fetchAndStep, hs, hl]⟩))
    · have hl := Nat.not_lt.mp hl
      cases hf : s.fetch s.pc.toNat with
      | none => exact .inr (.inr (.inr (.inl ⟨rfl, hl, rfl, fetchAndStep_ended hs hl hf⟩)))
      | some rec => exact .inr (.inr (.inr (.inr ⟨rec, rfl, hl, rfl, fetchAndStep_fetched hs hl hf⟩)))

/-- The engine's step always answers a next state. -/
theorem engineStep_completes (m : OpcodeMap) (rec : Record) (s : State) : ∃ t, engineStep m rec s = .next t := by
  cases h : decodeRecord m rec with
  | ok i => exact engineStep_ok s h ▸ exec_next i s
  | error k => exact ⟨_, engineStep_error s h⟩

/-- Where a turn answers a next state, the core was running with a well-formed store, and the record at PC ran. -/
theorem fetchAndStep_next {m : OpcodeMap} {s t : State} (h : fetchAndStep m s = .next t) :
    s.status = .running ∧ ProgramStore.wf s.image ∧ ∃ rec, s.fetch s.pc.toNat = some rec ∧ engineStep m rec s = .next t := by
  rcases fetchAndStep_cases m s with ⟨k, -, e⟩ | ⟨-, e⟩ | ⟨-, -, e⟩ | ⟨-, -, -, e⟩ | ⟨rec, hr, hl, hf, e⟩ <;> rw [e] at h
  · cases h
  · cases h
  · cases h
  · cases h
  · exact ⟨hr, hl, rec, hf, h⟩

/-- Where a turn stops, the core was stopped already and the stop's state is what the turn found, or the run ended there. -/
theorem fetchAndStep_fault {m : OpcodeMap} {s : State} {r : Fault} (h : fetchAndStep m s = .fault r) :
    (s.status ≠ .running ∧ r.final = s) ∨
    (s.status = .running ∧ ProgramStore.wf s.image ∧ s.fetch s.pc.toNat = none ∧ r.final = { s with status := .ended }) := by
  rcases fetchAndStep_cases m s with ⟨k, hs, e⟩ | ⟨hs, e⟩ | ⟨-, -, e⟩ | ⟨hr, hl, hf, e⟩ | ⟨rec, -, -, -, e⟩ <;> rw [e] at h
  · cases h
    exact .inl ⟨by simp [hs], rfl⟩
  · cases h
    exact .inl ⟨by simp [hs], rfl⟩
  · cases h
  · cases h
    exact .inr ⟨hr, hl, hf, rfl⟩
  · obtain ⟨t, ht⟩ := engineStep_completes m rec s
    rw [ht] at h
    cases h

/-! ## Placing a record -/

/-- An image with a record placed keeps its size. -/
theorem placeRecord_wf (image : List Record) (i : Nat) (rec : Record) : ProgramStore.wf (placeRecord image i rec) := by
  simp only [ProgramStore.wf, placeRecord, List.length_take]
  omega

/-- The placed record stands where it was placed. -/
theorem placeRecord_get (image : List Record) (i : Nat) (rec : Record) (h : i < maxRecords) : (placeRecord image i rec)[i]? = some rec := by
  have : i < (image ++ List.replicate (i + 1 - image.length) fillerRecord).length := by simp; omega
  simp [placeRecord, h, List.getElem?_set_self this]

/-- The very next step from `s.withRecord rec` runs `rec`, after the host's turn. -/
theorem stepWith_withRecord (m : OpcodeMap) (s : State) (rec : Record) :
    stepWith m (s.withRecord rec) = engineStep m rec (s.withRecord rec).hostTurn := by
  have ht : (s.withRecord rec).hostTurn = s.hostTurn.loadedWith (placeRecord s.image s.hostTurn.pc.toNat rec) :=
    State.loadedWith_hostTurn s _
  refine fetchAndStep_fetched ?_ ?_ ?_
  · rw [ht]; rfl
  · rw [ht]; exact placeRecord_wf _ _ _
  · rw [ht]; exact placeRecord_get _ _ _ s.hostTurn.pc.isLt

end Sys2Proof.Machine
end

