-- ==== Sys2Proof/Tests/Slice0.lean ====
section
/-! SUPPORT. Tests/Slice0.lean: words and vectors written out from the spec, the refusals of the checks, and for every statement with
hypotheses a witness that meets them. -/

namespace Sys2Proof.Tests

open Sys2Proof Sys2Proof.Machine Sys2Proof.Claims

/-! ## Decoding: one word per row, from the row's `encoding` bits in spec/opcode_table.json -/

theorem test_decode_movReg : decodeTableWord 24 0b000100000000001001000010 = some (.movReg 0x02 0x42) := by decide
theorem test_decode_movImm : decodeTableWord 24 0b000100010001011100000101 = some (.movImm 0x17 0x05) := by decide
theorem test_decode_addReg : decodeTableWord 24 0b001000000001000010100101 = some (.addReg 0x10 0xA5) := by decide
theorem test_decode_addImm : decodeTableWord 24 0b001000011000000100111100 = some (.addImm 0x81 0x3C) := by decide
theorem test_decode_subReg : decodeTableWord 24 0b001000100000001001000010 = some (.subReg 0x02 0x42) := by decide
theorem test_decode_subImm : decodeTableWord 24 0b001000110001011100000101 = some (.subImm 0x17 0x05) := by decide
theorem test_decode_lshReg : decodeTableWord 24 0b001100000001000010100101 = some (.lshReg 0x10 0xA5) := by decide
theorem test_decode_lshImm : decodeTableWord 24 0b001100011000000100111100 = some (.lshImm 0x81 0x3C) := by decide
theorem test_decode_rshReg : decodeTableWord 24 0b001100100000001001000010 = some (.rshReg 0x02 0x42) := by decide
theorem test_decode_rshImm : decodeTableWord 24 0b001100110001011100000101 = some (.rshImm 0x17 0x05) := by decide
theorem test_decode_andReg : decodeTableWord 24 0b010000000001000010100101 = some (.andReg 0x10 0xA5) := by decide
theorem test_decode_andImm : decodeTableWord 24 0b010000011000000100111100 = some (.andImm 0x81 0x3C) := by decide
theorem test_decode_orReg : decodeTableWord 24 0b010000100000001001000010 = some (.orReg 0x02 0x42) := by decide
theorem test_decode_orImm : decodeTableWord 24 0b010000110001011100000101 = some (.orImm 0x17 0x05) := by decide
theorem test_decode_xorReg : decodeTableWord 24 0b010001000001000010100101 = some (.xorReg 0x10 0xA5) := by decide
theorem test_decode_xorImm : decodeTableWord 24 0b010001011000000100111100 = some (.xorImm 0x81 0x3C) := by decide
theorem test_decode_cmpReg : decodeTableWord 24 0b011000000000001001000010 = some (.cmpReg 0x02 0x42) := by decide
theorem test_decode_cmpImm : decodeTableWord 24 0b011000010001011100000101 = some (.cmpImm 0x17 0x05) := by decide
theorem test_decode_br : decodeTableWord 24 0b010100000001000010100101 = some (.br 0x10) := by decide
theorem test_decode_be : decodeTableWord 24 0b010100111000000100111100 = some (.be 0x81) := by decide
theorem test_decode_bne : decodeTableWord 24 0b010101000000001001000010 = some (.bne 0x02) := by decide
theorem test_decode_bg : decodeTableWord 24 0b010101110001011100000101 = some (.bg 0x17) := by decide
theorem test_decode_bl : decodeTableWord 24 0b010110000001000010100101 = some (.bl 0x10) := by decide

/-! Illegal opcode bytes (95_test_vectors.md L2.2). -/

theorem test_decode_illegal :
    [0x000000, 0x120000, 0x460000, 0x5A0000, 0x5F0000, 0x620000, 0xFE0000, 0xFF0000].all (fun w => (decodeTableWord 24 w).isNone) = true := by
  decide

theorem test_decode_truncated : decodeBytes refOpcodes [0x50, 0x06] = .error .truncatedRecord := by rfl

theorem test_decode_bytes_illegal : decodeBytes refOpcodes [0x12, 0x00, 0x00, 0x50] = .error (.illegalOpcode 0x12) := by rfl

/-- 95_test_vectors.md P5, the image's bytes. -/
theorem test_image_bytes : recordsOfBytes [0x11, 0x00, 0x07, 0x21, 0x00, 0x01] = some [⟨0x11, 0x00, 0x07⟩, ⟨0x21, 0x00, 0x01⟩] := by
  decide

/-- 30_encoding.md R47: the reference assignment meets K1 to K5. -/
theorem refOpcodes_admissible : refOpcodes.Admissible where
  modeBitClear op := by cases op <;> decide
  injective op op' := by cases op <;> cases op' <;> decide
  branchNibble op := by cases op <;> decide
  otherNibble op := by cases op <;> decide
  notFE op := by cases op <;> decide

/-! ## The checks refuse -/

/-- REF_OPCODES with one code replaced. -/
def badMap (bad : Operation) (code : Byte) : OpcodeMap := fun op => if op = bad then code else refOpcodes op

theorem smoke_K1_refused : ¬ (badMap .add 0x21).Admissible := fun h => absurd (h.modeBitClear .add) (by decide)
theorem smoke_K2_refused : ¬ (badMap .add 0x22).Admissible := fun h => absurd (h.injective .add .sub (by decide)) (by decide)
theorem smoke_K3_refused : ¬ (badMap .br 0x70).Admissible := fun h => absurd (h.branchNibble .br (by decide)) (by decide)
theorem smoke_K4_refused : ¬ (badMap .add 0x5A).Admissible := fun h => absurd (h.otherNibble .add (by decide)) (by decide)
theorem smoke_K5_refused : ¬ (badMap .add 0xFE).Admissible := fun h => absurd (h.notFE .add) (by decide)
theorem smoke_long_image_refused : ¬ ProgramStore.wf (List.replicate 257 fillerRecord) := by
  rw [ProgramStore.wf, List.length_replicate]; decide
theorem smoke_branch_with_two_operands_refused : (AsmLine.data .br (.cell (.general 0)) (.imm 1)).wellFormed = false := by decide
theorem smoke_one_operand_add_refused : (AsmLine.branch .add 1).wellFormed = false := by decide

/-! ## Single steps, the vectors of 95_test_vectors.md by their id -/

/-- A running core at `p` with `rec` as the record there, every other record a filler and every register zero. -/
def loaded (p : Byte) (rec : Record) : State := { State.reset with pc := p, image := placeRecord [] p.toNat rec }

/-- The next state of an outcome. -/
def after : Host.Outcome State Fault Refusal → Option State
  | .next t => some t
  | _ => none

/-- What a step shows of a state: one cell, PC, status. -/
def shows (c : Cell) (t : State) : Byte × Byte × Status := (t.value c, t.pc, t.status)

theorem test_V1_add_wraps : (after (step ((loaded 0x04 ⟨0x21, 0x00, 0x01⟩).setValue (.general 0) 0xFF))).map (shows (.general 0)) = some (0x00, 0x05, .running) := by decide
theorem test_V2_add_pc_is_relative_jump : (after (step (loaded 0x0A ⟨0x21, 0x16, 0x03⟩))).map (shows (.programCounter)) = some (0x0E, 0x0E, .running) := by decide
theorem test_L2_3_sub_borrow : (after (step (((loaded 0x00 ⟨0x22, 0x00, 0x01⟩).setValue (.general 0) 0x03).setValue (.general 1) 0x0A))).map (shows (.general 0)) = some (0xF9, 0x01, .running) := by decide
theorem test_V8_sub_cr : (after (step ((loaded 0x00 ⟨0x23, 0x17, 0x11⟩).setValue (.conditionResult) 0x10))).map (shows (.conditionResult)) = some (0xFF, 0x01, .running) := by decide
theorem test_L2_3_lsh_by_eight : (after (step ((loaded 0x00 ⟨0x31, 0x00, 0x08⟩).setValue (.general 0) 0x01))).map (shows (.general 0)) = some (0x00, 0x01, .running) := by decide
theorem test_V26_lsh_by_cr : (after (step (((loaded 0x00 ⟨0x30, 0x00, 0x17⟩).setValue (.general 0) 0x01).setValue (.conditionResult) 0x03))).map (shows (.general 0)) = some (0x08, 0x01, .running) := by decide
theorem test_L2_3_rsh_zero_fill : (after (step (((loaded 0x00 ⟨0x32, 0x00, 0x01⟩).setValue (.general 0) 0xFF).setValue (.general 1) 0x01))).map (shows (.general 0)) = some (0x7F, 0x01, .running) := by decide
theorem test_V27_rsh_pc : (after (step (loaded 0x09 ⟨0x33, 0x16, 0x01⟩))).map (shows (.programCounter)) = some (0x05, 0x05, .running) := by decide
theorem test_L2_3_and : (after (step (((loaded 0x00 ⟨0x40, 0x00, 0x01⟩).setValue (.general 0) 0xF0).setValue (.general 1) 0x3C))).map (shows (.general 0)) = some (0x30, 0x01, .running) := by decide
theorem test_P3_and_display_mask : (after (step ((loaded 0x07 ⟨0x41, 0x13, 0x7F⟩).setValue (.display 1) 0x5B))).map (shows (.display 1)) = some (0x5B, 0x08, .running) := by decide
theorem test_P4_or : (after (step (((loaded 0x0A ⟨0x42, 0x02, 0x03⟩).setValue (.general 2) 0x0F).setValue (.general 3) 0x30))).map (shows (.general 2)) = some (0x3F, 0x0B, .running) := by decide
theorem test_L2_3_or_imm : (after (step ((loaded 0x00 ⟨0x43, 0x00, 0x0F⟩).setValue (.general 0) 0xF0))).map (shows (.general 0)) = some (0xFF, 0x01, .running) := by decide
theorem test_L2_3_xor : (after (step (((loaded 0x00 ⟨0x44, 0x00, 0x01⟩).setValue (.general 0) 0xFF).setValue (.general 1) 0x0F))).map (shows (.general 0)) = some (0xF0, 0x01, .running) := by decide
theorem test_V25_xor_display : (after (step ((loaded 0x00 ⟨0x45, 0x12, 0xFF⟩).setValue (.display 0) 0x06))).map (shows (.display 0)) = some (0xF9, 0x01, .running) := by decide
theorem test_L1_10_cmp_negative : (after (step (((loaded 0x00 ⟨0x60, 0x00, 0x01⟩).setValue (.general 0) 0x03).setValue (.general 1) 0x0A))).map (shows (.conditionResult)) = some (0xF9, 0x01, .running) := by decide
theorem test_V10_cmp_pc : (after (step (loaded 0x05 ⟨0x61, 0x16, 0x06⟩))).map (shows (.conditionResult)) = some (0x00, 0x06, .running) := by decide
theorem test_V4_mov_pc_reads_advanced : (after (step (loaded 0x07 ⟨0x10, 0x00, 0x16⟩))).map (shows (.general 0)) = some (0x08, 0x08, .running) := by decide
theorem test_V3_pc_wraps_at_255 : (after (engineStep refOpcodes ⟨0x11, 0x00, 0x01⟩ (State.reset.setValue .programCounter 0xFF))).map (shows (.general 0)) = some (0x01, 0x00, .running) := by decide
theorem test_L2_6_mov_to_button : (after (step (loaded 0x01 ⟨0x11, 0x10, 0x07⟩))).map (shows (.button 0)) = some (0x07, 0x02, .running) := by decide
theorem test_V21_br : (after (step (loaded 0x12 ⟨0x50, 0xFF, 0x00⟩))).map (shows (.programCounter)) = some (0xFF, 0xFF, .running) := by decide
theorem test_V17_be_ignores_mode_and_right : (after (step (loaded 0x06 ⟨0x53, 0x09, 0xFF⟩))).map (shows (.programCounter)) = some (0x09, 0x09, .running) := by decide
theorem test_V20_be_not_taken_wraps : (after (engineStep refOpcodes ⟨0x52, 0x00, 0x00⟩ ((State.reset.setValue .programCounter 0xFF).setValue .conditionResult 0x01))).map (shows (.conditionResult)) = some (0x01, 0x00, .running) := by decide
theorem test_V22_bne_not_taken : (after (step (loaded 0x10 ⟨0x54, 0x80, 0x00⟩))).map (shows (.programCounter)) = some (0x11, 0x11, .running) := by decide
theorem test_L2_5_bne_taken_at_80 : (after (step ((loaded 0x10 ⟨0x54, 0x20, 0x00⟩).setValue (.conditionResult) 0x80))).map (shows (.conditionResult)) = some (0x80, 0x20, .running) := by decide
theorem test_L1_13_bg_taken_at_zero : (after (step (loaded 0x01 ⟨0x56, 0x30, 0x00⟩))).map (shows (.programCounter)) = some (0x30, 0x30, .running) := by decide
theorem test_V24_bg_not_taken_at_80 : (after (step ((loaded 0x10 ⟨0x56, 0x00, 0x00⟩).setValue (.conditionResult) 0x80))).map (shows (.conditionResult)) = some (0x80, 0x11, .running) := by decide
theorem test_V23_bl_taken_at_80 : (after (step ((loaded 0x10 ⟨0x58, 0x00, 0x00⟩).setValue (.conditionResult) 0x80))).map (shows (.conditionResult)) = some (0x80, 0x00, .running) := by decide
theorem test_L2_5_bl_not_taken_at_7F : (after (step ((loaded 0x10 ⟨0x58, 0x00, 0x00⟩).setValue (.conditionResult) 0x7F))).map (shows (.conditionResult)) = some (0x7F, 0x11, .running) := by decide
theorem test_V11_invalid_right_faults : (after (step ((loaded 0x06 ⟨0x20, 0x00, 0x08⟩).setValue (.general 0) 0x01))).map (shows (.general 0)) = some (0x01, 0x06, .faulted .invalidRegisterAddress) := by decide
theorem test_V13_cmp_fault_leaves_cr : (after (step ((loaded 0x06 ⟨0x60, 0xFF, 0x00⟩).setValue (.conditionResult) 0x09))).map (shows (.conditionResult)) = some (0x09, 0x06, .faulted .invalidRegisterAddress) := by decide
theorem test_V14_illegal_opcode_wins : (after (step (loaded 0x06 ⟨0xFE, 0x08, 0x08⟩))).map (shows (.programCounter)) = some (0x06, 0x06, .faulted .invalidOpcode) := by decide

/-! The run (40_step.md R56, R68, R69) and the host (95_test_vectors.md P7). -/

theorem test_reset_ends : step State.reset = .fault (.runEnded { State.reset with status := .ended }) := by rfl

theorem test_stopped_core_has_no_step :
    step { State.reset with status := .faulted .invalidOpcode } =
      .fault (.stoppedFaulted .invalidOpcode { State.reset with status := .faulted .invalidOpcode }) := by
  rfl

/-- The poll and the render of the last turn stand in the final state (40_step.md R68: the host's actions come before the stop). -/
theorem test_stop_keeps_the_last_turn :
    step { State.reset with status := .ended, schedule := ⟨[[.poll true true, .render]], .repeating []⟩ } =
      .fault (.stoppedEnded { State.reset with status := .ended, bt := #v[0x01, 0x01], frames := [State.reset.dp] }) := by
  rfl

/-- The run stops where it ends: the reset of the host's next turn is not taken (40_step.md R68, R69). -/
theorem test_end_stops_at_once :
    runWith refOpcodes 2 { State.reset with schedule := ⟨[[], [.reset resetRegsReference]], .repeating []⟩ } =
      .fault (.runEnded { State.reset with status := .ended, schedule := ⟨[[.reset resetRegsReference]], .repeating []⟩ }) := by
  rfl

/-- A host that polls for ever: the schedule after its turn is the schedule before it. -/
theorem test_endless_polls :
    (after (step { loaded 0x06 ⟨0x50, 0x06, 0x00⟩ with schedule := ⟨[], .repeating [[.poll true false]]⟩ })).map
      (fun t => (t.schedule, t.value (.button 0), t.pc)) = some (⟨[], .repeating [[.poll true false]]⟩, 0x01, 0x06) := by
  decide

theorem test_P7_poll_is_seen_by_the_next_step :
    (after (step { loaded 0x00 ⟨0x10, 0x00, 0x10⟩ with schedule := ⟨[[.poll true false]], .repeating []⟩ })).map (shows (.general 0)) =
      some (0x01, 0x01, .running) := by
  decide

theorem test_reset_action_revives_a_faulted_core :
    (after (step { loaded 0x00 ⟨0x11, 0x02, 0x42⟩ with
      pc := 0x33, status := .faulted .invalidOpcode, schedule := ⟨[[.reset resetRegsReference]], .repeating []⟩ })).map (shows (.general 2)) =
      some (0x42, 0x01, .running) := by
  decide

theorem test_first_instruction_after_reset :
    (after (step (State.reset.withFetchWord 24 0x110242))).map (shows (.general 2)) = some (0x42, 0x01, .running) := by
  decide

theorem test_render_hands_over_dp :
    (State.hostAct ((loaded 0x00 fillerRecord).setValue (.display 3) 0x3F) .render).frames.map (·[3]) = [0x3F] := by
  decide

/-! The lines of 95_test_vectors.md V2, V11, V21. -/

theorem test_assemble_V2 : (AsmLine.data .add (.cell .programCounter) (.imm 3)).assemble refOpcodes = ⟨0x21, 0x16, 0x03⟩ := by decide
theorem test_text_V11 : (disassemble refOpcodes ⟨0x20, 0x00, 0x08⟩).map AsmLine.text = some "ADD G0, @0x08" := by decide
theorem test_text_branch : (disassemble refOpcodes ⟨0x53, 0x09, 0xFF⟩).map AsmLine.text = some "BE 9" := by decide

/-! ## Witnesses: for every statement with hypotheses, a concrete input that meets them, at the boundary values of each clause -/

/-- Both bounds of every clause of the register map, and the first and last invalid address of both gaps. -/
theorem witness_RegisterMapIsTheTable :
    [0x00, 0x07, 0x10, 0x11, 0x12, 0x15, 0x16, 0x17].map decodeAddr =
      [some (.general 0), some (.general 7), some (.button 0), some (.button 1), some (.display 0), some (.display 3),
       some .programCounter, some .conditionResult] ∧
    [0x08, 0x0F, 0x18, 0xFF].map decodeAddr = [none, none, none, none] := by
  decide

theorem witness_ValidAddressesAreDistinctCells :
    decodeAddr 0x07 = some (.general 7) ∧ State.reset.store 0x07 0x01 = .ok (State.reset.setValue (.general 7) 0x01) ∧
      (0x06 : Byte) ≠ 0x07 := ⟨rfl, rfl, by decide⟩

theorem witness_LoadAndStoreContract : decodeAddr 0x18 = none ∧ decodeAddr 0x17 = some .conditionResult := by decide

/-- For the seven ALU statements, CMP and MOV: an admissible map, valid left and right addresses (PC and CR among them), an invalid left
with a valid right, and a valid left with an invalid right. -/
theorem witness_data_rules :
    refOpcodes.Admissible ∧ decodeAddr 0x00 = some (.general 0) ∧ decodeAddr 0x16 = some .programCounter ∧
      decodeAddr 0x17 = some .conditionResult ∧ decodeAddr 0x08 = none ∧ decodeAddr 0xFF = none :=
  ⟨refOpcodes_admissible, by decide⟩

/-- For the five branches: an admissible map, and both sides of each predicate at its bounds. -/
theorem witness_branch_rules :
    refOpcodes.Admissible ∧ (0x00 : Byte).toNat = 0 ∧ (0x01 : Byte).toNat ≠ 0 ∧ (0x7F : Byte).toNat < 128 ∧ ¬ (0x80 : Byte).toNat < 128 ∧
      (0x80 : Byte).toNat > 127 ∧ ¬ (0x7F : Byte).toNat > 127 :=
  ⟨refOpcodes_admissible, by decide⟩

/-- For the statements about a next state of exec (StepWritesOnlyItsDestination, RegistersChangeOnlyWhenNamed): one that writes a cell. -/
theorem witness_exec_next :
    exec (.movImm 0x02 0x42) State.reset = .next (State.reset.advancePc.setValue (.general 2) 0x42) ∧
    destination (.movImm 0x02 0x42) ≠ some (.general 1) ∧
    (State.reset.advancePc.setValue (.general 2) 0x42).value (.general 2) ≠ State.reset.value (.general 2) :=
  ⟨rfl, by decide, by decide⟩

/-- One that changes CR, by CMP. -/
theorem witness_exec_next_cmp :
    exec (.cmpImm 0x00 0x01) State.reset = .next (State.reset.advancePc.setValue .conditionResult 0xFF) ∧
    (State.reset.advancePc.setValue .conditionResult 0xFF).value .conditionResult ≠ State.reset.value .conditionResult :=
  ⟨rfl, by decide⟩

/-- Every row of the final-PC table. -/
theorem witness_FinalPcOfEveryStep :
    (hasInvalidAddress (.addReg 0x00 0x17) = false ∧ (Instr.addReg 0x00 0x17).left ≠ 0x16) ∧
    (hasInvalidAddress (.addReg 0x16 0x17) = false ∧ (Instr.addReg 0x16 0x17).rightOperand = some (.registerOperand, 0x17) ∧
      State.reset.rightSeen .registerOperand 0x17 = some 0x00) ∧
    hasInvalidAddress (.cmpReg 0x16 0x00) = false ∧
    (takenAt .be State.reset.cr.toNat ∧ ¬ takenAt .bne State.reset.cr.toNat) ∧
    (hasInvalidAddress (.movReg 0x00 0x08) = true ∧ hasInvalidAddress (.movImm 0x18 0x00) = true) :=
  ⟨by decide, by decide, by decide, ⟨rfl, fun h => h rfl⟩, by decide⟩

theorem witness_SameRegisterIsReadTwiceBeforeTheWrite : decodeAddr 0x16 = some .programCounter := by decide

/-- CR = 0, and a compare on each side of 128. -/
theorem witness_BranchPredicatesOverlapAndExclude :
    State.reset.cr = 0 ∧ decodeAddr 0x00 = some (.general 0) ∧ diffMod 0 0 < 128 ∧ ¬ diffMod 0 0x80 < 128 := by
  decide

/-- A running state with a record of each kind: an invalid address, an illegal opcode, one write, a branch. -/
theorem witness_StepIsAllOrNothing :
    State.reset.status = .running ∧
    engineStep refOpcodes ⟨0x20, 0x00, 0x08⟩ State.reset = .next (State.reset.raise .invalidRegisterAddress) ∧
    engineStep refOpcodes ⟨0xFF, 0x00, 0x00⟩ State.reset = .next (State.reset.raise .invalidOpcode) ∧
    engineStep refOpcodes ⟨0x11, 0x02, 0x42⟩ State.reset = .next (State.reset.advancePc.setValue (.general 2) 0x42) ∧
    engineStep refOpcodes ⟨0x50, 0x09, 0x00⟩ State.reset = .next { State.reset with pc := 0x09 } :=
  ⟨rfl, rfl, rfl, rfl, rfl⟩

theorem witness_FaultsExactlyWhenTheSpecSays :
    State.reset.status = .running ∧ (∀ op, refOpcodes op ≠ (0xFF : Byte) &&& 0xFE) ∧
    (decodeRecord refOpcodes ⟨0x20, 0x00, 0x08⟩ = .ok (.addReg 0x00 0x08) ∧ hasInvalidAddress (.addReg 0x00 0x08) = true) ∧
    (decodeRecord refOpcodes ⟨0x21, 0x00, 0x08⟩ = .ok (.addImm 0x00 0x08) ∧ hasInvalidAddress (.addImm 0x00 0x08) = false) :=
  ⟨rfl, fun op => by cases op <;> decide, ⟨rfl, by decide⟩, ⟨rfl, by decide⟩⟩

/-- A state with a record to run; its host turn is no turn, since nothing is scheduled. -/
theorem witness_StepRunsTheRecordAtPc :
    (loaded 0x04 ⟨0x21, 0x00, 0x01⟩).hostTurn.status = .running ∧ ProgramStore.wf (loaded 0x04 ⟨0x21, 0x00, 0x01⟩).image ∧
    (loaded 0x04 ⟨0x21, 0x00, 0x01⟩).image[(loaded 0x04 ⟨0x21, 0x00, 0x01⟩).hostTurn.pc.toNat]? = some ⟨0x21, 0x00, 0x01⟩ ∧
    decodeRecord refOpcodes ⟨0x21, 0x00, 0x01⟩ = .ok (.addImm 0x00 0x01) :=
  ⟨rfl, by decide, by decide, rfl⟩

theorem witness_StoppedCoreTakesNoStep :
    ({ State.reset with status := .faulted .invalidOpcode } : State).hostTurn.status = .faulted .invalidOpcode ∧
    ({ State.reset with status := .ended } : State).hostTurn.status = .ended :=
  ⟨rfl, rfl⟩

/-- PC at N exactly, and under a schedule whose first turn polls. -/
theorem witness_RunEndsWhereThereIsNoRecord :
    State.reset.hostTurn.status = .running ∧ ProgramStore.wf State.reset.image ∧
      State.reset.image.length ≤ State.reset.hostTurn.pc.toNat ∧
    (State.reset.act ((fun _ : Nat => [HostAction.poll true false]) 0)).status = .running ∧
      State.reset.image.length ≤ (State.reset.act ((fun _ : Nat => [HostAction.poll true false]) 0)).pc.toNat := by
  decide

theorem witness_ImageOver256RecordsIsRefused :
    ({ State.reset with image := List.replicate 257 fillerRecord } : State).hostTurn.status = .running ∧
    256 < ({ State.reset with image := List.replicate 257 fillerRecord } : State).image.length :=
  ⟨rfl, by rw [List.length_replicate]; decide⟩

/-- A step of the run with a next state, and one that stops, each from a state that meets the invariant and with nothing scheduled
(ProgramStoreIsNeverWritten, StepKeepsStatusExplained, NothingIsShownWithoutRender, ShownFramesDoNotInfluenceTheRun). -/
theorem witness_step_next :
    (loaded 0x00 ⟨0x50, 0x09, 0x00⟩).Inv refOpcodes ∧
    stepWith refOpcodes (loaded 0x00 ⟨0x50, 0x09, 0x00⟩) = .next { loaded 0x00 ⟨0x50, 0x09, 0x00⟩ with pc := 0x09 } ∧
    step (loaded 0x00 ⟨0x50, 0x09, 0x00⟩) = .next { loaded 0x00 ⟨0x50, 0x09, 0x00⟩ with pc := 0x09 } ∧
    HostAction.render ∉ (loaded 0x00 ⟨0x50, 0x09, 0x00⟩).comingTurn ∧
    State.reset.Inv refOpcodes ∧ stepWith refOpcodes State.reset = .fault (.runEnded { State.reset with status := .ended }) ∧
    HostAction.render ∉ State.reset.comingTurn :=
  ⟨⟨by decide, trivial⟩, rfl, rfl, by decide, ⟨by decide, trivial⟩, rfl, by decide⟩

/-- Both states ResetSetsEveryCell speaks of. -/
theorem witness_ResetSetsEveryCell :
    State.reset ∈ [State.afterReset resetRegsReference [] .silent, (loaded 0x04 fillerRecord).hostAct (.reset resetRegsReference)] ∧
    (loaded 0x04 fillerRecord).hostAct (.reset resetRegsReference) ∈
      [State.afterReset resetRegsReference [] .silent, (loaded 0x04 fillerRecord).hostAct (.reset resetRegsReference)] :=
  ⟨List.mem_cons_self, List.mem_cons_of_mem _ List.mem_cons_self⟩

theorem witness_ResetStateIsExplained : ProgramStore.wf [(⟨0x11, 0x00, 0x03⟩ : Record)] := by decide

/-- A faulted core with a turn of polls and renders to come (FaultIsFinalUntilReset, HostWritesNoRegisterButButtons). -/
theorem witness_FaultIsFinalUntilReset :
    ({ State.reset with status := .faulted .invalidOpcode, schedule := ⟨[], .repeating [[.poll true false, .render]]⟩ } : State).status =
      .faulted .invalidOpcode ∧
    ∀ a ∈ ({ State.reset with status := .faulted .invalidOpcode, schedule := ⟨[], .repeating [[.poll true false, .render]]⟩ } : State).comingTurn,
      a.keepsRun = true := by
  decide

/-- A listed turn, and a tail that repeats. -/
theorem witness_HostScheduleNeverRunsOut :
    0 < ([[.render]] : List (List HostAction)).length ∧
    HostSchedule.turn ⟨[[.render]], .repeating [[.poll true false], []]⟩ 0 = [.render] ∧
    HostSchedule.turn ⟨[[.render]], .repeating [[.poll true false], []]⟩ 3 = [.poll true false] := by
  decide

/-- BR 6 at index 6, under a host that polls for ever. -/
theorem witness_BranchToItselfRunsForEver :
    (loaded 0x06 ⟨0x50, 0x06, 0x00⟩).status = .running ∧ ProgramStore.wf (loaded 0x06 ⟨0x50, 0x06, 0x00⟩).image ∧
    (loaded 0x06 ⟨0x50, 0x06, 0x00⟩).fetch (loaded 0x06 ⟨0x50, 0x06, 0x00⟩).pc.toNat = some ⟨0x50, 0x06, 0x00⟩ ∧
    decodeRecord refOpcodes ⟨0x50, 0x06, 0x00⟩ = .ok (.br (loaded 0x06 ⟨0x50, 0x06, 0x00⟩).pc) ∧
    ∀ n : Nat, ∀ a ∈ (fun _ : Nat => [HostAction.poll true false]) n, a.keepsRun = true :=
  ⟨rfl, by decide, by decide, rfl, fun _ => by simp [HostAction.keepsRun]⟩

/-- A stop from a state that meets the invariant (StepKeepsStatusExplained, its last clause). -/
theorem witness_stop_keeps_invariant :
    ({ State.reset with status := .ended } : State).Inv refOpcodes ∧
    stepWith refOpcodes { State.reset with status := .ended } = .fault (.stoppedEnded { State.reset with status := .ended }) :=
  ⟨⟨by decide, rfl⟩, rfl⟩

theorem witness_FaultPortCodes :
    ({ State.reset with status := .faulted .invalidOpcode } : State).status = .faulted .invalidOpcode ∧
    ({ State.reset with status := .faulted .invalidRegisterAddress } : State).status = .faulted .invalidRegisterAddress ∧
    (∀ k, State.reset.status ≠ .faulted k) ∧ (∀ k, ({ State.reset with status := .ended } : State).status ≠ .faulted k) :=
  ⟨rfl, rfl, fun k => by cases k <;> decide, fun k => by cases k <;> decide⟩

theorem witness_OpcodeDecoderIsTheRule :
    refOpcodes.Admissible ∧ refOpcodes .bl = (0x59 : Byte) &&& 0xFE ∧ (∀ op, refOpcodes op ≠ (0x5A : Byte) &&& 0xFE) :=
  ⟨refOpcodes_admissible, by decide, fun op => by cases op <;> decide⟩

theorem witness_BranchNibbleDecidesTheClass :
    refOpcodes.Admissible ∧ decodeOp refOpcodes 0x59 = .ok (.bl, .immediateOperand) ∧ decodeOp refOpcodes 0x60 = .ok (.cmp, .registerOperand) :=
  ⟨refOpcodes_admissible, rfl, rfl⟩

/-- An admissible map, and a legal record of each kind, what a branch ignores being set (ExactlyTwentyEightOpcodesAreLegal,
DecodeOfEncodeIsTheInstruction, EncodeOfDecodeIsTheRecord). -/
theorem witness_encoding :
    refOpcodes.Admissible ∧ decodeRecord refOpcodes ⟨0x53, 0x09, 0xFF⟩ = .ok (.be 0x09) ∧
      decodeRecord refOpcodes ⟨0x45, 0x12, 0xFF⟩ = .ok (.xorImm 0x12 0xFF) :=
  ⟨refOpcodes_admissible, rfl, rfl⟩

theorem witness_RecordsLieThreeBytesApart :
    recordsOfBytes [0x11, 0x00, 0x07, 0x21, 0x00, 0x01] = some [⟨0x11, 0x00, 0x07⟩, ⟨0x21, 0x00, 0x01⟩] ∧
    ([⟨0x11, 0x00, 0x07⟩, ⟨0x21, 0x00, 0x01⟩] : List Record)[1]? = some ⟨0x21, 0x00, 0x01⟩ ∧
    ([0x11, 0x00, 0x07, 0x21] : List Byte).length % 3 ≠ 0 := by
  decide

theorem witness_AssemblerAgreesWithTheEncoder :
    refOpcodes.Admissible ∧ (AsmLine.data .add (.raw 0x18) (.reg (.cell .programCounter))).wellFormed = true ∧
      (AsmLine.data .add (.raw 0x18) (.imm 0x08)).wellFormed = true ∧ (AsmLine.branch .bl 0x09).wellFormed = true :=
  ⟨refOpcodes_admissible, by decide⟩

end Sys2Proof.Tests
end

section
/-! Proofs of the register file's obligations (10_state.md): the register map, Load and Store, and which instructions change a register. -/

namespace Sys2Proof.Proofs

open Sys2Proof Sys2Proof.Machine

/-! ## The addresses that name no cell -/

/-- The two gaps of the register map (10_state.md R13). -/
theorem decodeAddr_eq_none_iff (a : Byte) :
    decodeAddr a = none ↔ (0x08 ≤ a.toNat ∧ a.toNat ≤ 0x0F) ∨ 0x18 ≤ a.toNat := by
  unfold decodeAddr gpLast btFirst btLast dpFirst dpLast pcAddr crAddr
  repeat' split
  all_goals simp only [reduceCtorEq, true_iff, false_iff]
  all_goals bv_omega

/-- An address that is no cell's decodes to no cell. -/
theorem decodeAddr_eq_none_of_ne_address {a : Byte} (h : ∀ c : Cell, a ≠ c.address) : decodeAddr a = none :=
  Option.eq_none_iff_forall_ne_some.mpr fun c hc => h c (address_of_decodeAddr hc).symm

/-! ## Load after Store -/

/-- A store that succeeds wrote the one cell its address names. -/
theorem State.store_eq_ok {s s' : State} {a v : Byte} (h : s.store a v = .ok s') :
    ∃ c, decodeAddr a = some c ∧ s' = s.setValue c v := by
  cases hc : decodeAddr a with
  | none =>
    rw [State.store_none s v hc] at h
    cases h
  | some c =>
    rw [State.store_some s v hc] at h
    cases h
    exact ⟨c, rfl, rfl⟩

/-- Writing a cell leaves what every address but that cell's loads. -/
theorem State.load_setValue_of_ne (s : State) (v : Byte) {a b : Byte} {c : Cell} (ha : decodeAddr a = some c) (hb : b ≠ a) :
    (s.setValue c v).load b = s.load b := by
  cases hc : decodeAddr b with
  | none => rw [State.load_none _ hc, State.load_none _ hc]
  | some c' =>
    have hne : c' ≠ c := fun h => hb (decodeAddr_injective (h ▸ hc) ha)
    rw [State.load_some _ hc, State.load_some _ hc, State.value_setValue_of_ne s c c' v hne]

/-! ## Which instruction changes which cell -/

/-- A step leaves every cell alone but PC and the instruction's destination (40_step.md R59). -/
theorem exec_value_of_ne_destination {i : Instr} {s t : State} {c : Cell} (h : exec i s = .next t) (hp : c ≠ .programCounter)
    (hd : destination i ≠ some c) : t.value c = s.value c := by
  rcases exec_cases i s with ⟨-, -, d, v, hdest, hx⟩ | ⟨-, hx⟩ | ⟨-, -, hx⟩ <;> cases hx.symm.trans h
  case inl =>
    have hc : c ≠ d := fun hcd => hd (hcd ▸ hdest)
    rw [State.value_setValue_of_ne _ _ _ _ hc, State.value_advancePc, State.seen_of_ne _ _ hp]
  case inr.inl => exact State.value_setValue_of_ne s .programCounter c _ hp
  case inr.inr => exact State.value_raise s _ c

/-- CMP is the one operation of its class (30_encoding.md R45). -/
theorem opClass_eq_compare {op : Operation} (h : op.opClass = .compare) : op = .cmp := by
  cases op with
  | cmp => rfl
  | _ => cases h

/-- Only ALU operations and MOV name their destination by address; a destination other than PC of any other instruction is CR, in CMP. -/
theorem destination_eq_some {i : Instr} {c : Cell} (hp : c ≠ .programCounter) (h : destination i = some c) :
    (decodeAddr i.left = some c ∧ (i.op.opClass = .alu ∨ i.op.opClass = .move)) ∨ (c = .conditionResult ∧ i.op = .cmp) := by
  unfold destination at h
  cases hc : i.op.opClass <;> rw [hc] at h
  case alu => exact .inl ⟨h, .inl rfl⟩
  case move => exact .inl ⟨h, .inr rfl⟩
  case compare => exact .inr ⟨(Option.some.inj h).symm, opClass_eq_compare hc⟩
  case branch => exact absurd (Option.some.inj h).symm hp

/-! ## The obligations -/

/-- Settles O2: a cell and its address determine each other, so a store through one address is seen through no other. -/
theorem validAddressesAreDistinctCells : Obligations.ValidAddressesAreDistinctCells := by
  refine ⟨decodeAddr_address, fun a b c => decodeAddr_injective, fun s a v hne => ?_, fun s s' a v hs => ?_⟩
  · have hnone := decodeAddr_eq_none_of_ne_address hne
    exact ⟨State.load_none s hnone, State.store_none s v hnone⟩
  · obtain ⟨c, hc, rfl⟩ := State.store_eq_ok hs
    refine ⟨?_, fun b hb => State.load_setValue_of_ne s v hc hb⟩
    rw [State.load_some _ hc, State.value_setValue_self]

/-- Settles O3, by the read-after-write rules of one cell. -/
theorem loadAndStoreContract : Obligations.LoadAndStoreContract := by
  refine ⟨fun s a v h => ⟨State.load_none s h, State.store_none s v h⟩, fun s a v c h => ⟨State.load_some s h, ?_⟩⟩
  exact ⟨s.setValue c v, State.store_some s v h, State.value_setValue_self s c v,
    fun c' hne => State.value_setValue_of_ne s c c' v hne, State.setValue_status s c v, State.setValue_image s c v,
    State.setValue_schedule s c v, State.setValue_frames s c v⟩

/-- Settles O19: a changed cell other than PC is the instruction's destination, and only the operations named write such a one. -/
theorem registersChangeOnlyWhenNamed : Obligations.RegistersChangeOnlyWhenNamed := by
  intro i s t hx c hp hne
  have hd : destination i = some c :=
    Decidable.byContradiction fun hd => hne (exec_value_of_ne_destination hx hp hd)
  rcases destination_eq_some hp hd with ⟨hl, hop⟩ | hcmp
  · exact .inl ⟨(address_of_decodeAddr hl).symm, hop⟩
  · exact .inr hcmp

/-- Settles O1: each row of the table is the decoder at a cell's own address, and the gaps decode to no cell. -/
theorem registerMapIsTheTable : Obligations.RegisterMapIsTheTable :=
  ⟨fun i => decodeAddr_address (.general i), fun i => decodeAddr_address (.button i), fun i => decodeAddr_address (.display i),
    decodeAddr_pcAddr, decodeAddr_crAddr, fun a => (decodeAddr_eq_none_iff a).mpr⟩

end Sys2Proof.Proofs
end

section
/-! Proofs of the program store's obligations (20_memory.md): no step writes it, how its bytes split into records, and its size. -/

namespace Sys2Proof.Proofs

open Sys2Proof Sys2Proof.Machine

/-! ## The program store under a step -/

/-- No instruction writes the program store (20_memory.md R36). -/
theorem exec_image {i : Instr} {s t : State} (h : exec i s = .next t) : t.image = s.image := by
  rcases exec_cases i s with ⟨-, -, d, v, -, hx⟩ | ⟨-, hx⟩ | ⟨-, -, hx⟩ <;> cases hx.symm.trans h
  case inl => rw [State.setValue_image, State.advancePc_image]
  case inr.inl => rfl
  case inr.inr => exact State.raise_image s _

/-- Nor does the engine's step, whatever record it is given. -/
theorem engineStep_image {m : OpcodeMap} {rec : Record} {s t : State} (h : engineStep m rec s = .next t) :
    t.image = s.image := by
  rcases engineStep_next h with ⟨-, rfl⟩ | ⟨i, -, hx⟩
  · exact State.raise_image s _
  · exact exec_image hx

/-- A turn of the loop that answers a next state keeps the program store it found. -/
theorem fetchAndStep_next_image {m : OpcodeMap} {s t : State} (h : fetchAndStep m s = .next t) : t.image = s.image := by
  obtain ⟨-, -, rec, -, hstep⟩ := fetchAndStep_next h
  exact engineStep_image hstep

/-- A turn of the loop that stops carries the program store it found. -/
theorem fetchAndStep_fault_image {m : OpcodeMap} {s : State} {r : Fault} (h : fetchAndStep m s = .fault r) :
    r.final.image = s.image := by
  rcases fetchAndStep_fault h with ⟨-, hfinal⟩ | ⟨-, -, -, hfinal⟩ <;> rw [hfinal]

/-- A running core whose program store is too long is refused (20_memory.md R26). -/
theorem fetchAndStep_tooLong {m : OpcodeMap} {s : State} (hr : s.status = .running) (hl : maxRecords < s.image.length) :
    fetchAndStep m s = .refused .imageTooLong := by
  simp [fetchAndStep, hr, hl]

/-! ## Bytes and records -/

/-- The bytes of any records split into those records. -/
theorem recordsOfBytes_bytesOfRecords (recs : List Record) : recordsOfBytes (bytesOfRecords recs) = some recs := by
  induction recs with
  | nil => rfl
  | cons rec recs ih => simp [bytesOfRecords, recordsOfBytes, ih]

/-- Bytes that split are the bytes of their records. -/
theorem eq_bytesOfRecords {bytes : List Byte} {recs : List Record} (h : recordsOfBytes bytes = some recs) :
    bytes = bytesOfRecords recs := by
  induction bytes using recordsOfBytes.induct generalizing recs with
  | case1 => cases h; rfl
  | case2 => cases h
  | case3 => cases h
  | case4 o l r rest ih =>
    obtain ⟨tail, htail, rfl⟩ := Option.map_eq_some_iff.mp h
    rw [ih htail, bytesOfRecords]

/-- A record has three bytes (20_memory.md R28). -/
theorem length_bytesOfRecords (recs : List Record) : (bytesOfRecords recs).length = 3 * recs.length := by
  induction recs with
  | nil => rfl
  | cons rec recs ih => simp [bytesOfRecords, ih, Nat.mul_add]

/-- Leaving out the bytes of the first `i` records leaves the bytes of the others. -/
theorem drop_bytesOfRecords (recs : List Record) (i : Nat) :
    (bytesOfRecords recs).drop (3 * i) = bytesOfRecords (recs.drop i) := by
  induction i generalizing recs with
  | zero => rfl
  | succ i ih =>
    cases recs with
    | nil => simp [bytesOfRecords]
    | cons rec recs => exact ih recs

/-- Record `i`'s bytes stand at `3 * i` and after it, in the order opcode, left, right (20_memory.md R28). -/
theorem getElem?_bytesOfRecords {recs : List Record} {i : Nat} {rec : Record} (h : recs[i]? = some rec) :
    (bytesOfRecords recs)[3 * i]? = some rec.opcode ∧ (bytesOfRecords recs)[3 * i + 1]? = some rec.left ∧
      (bytesOfRecords recs)[3 * i + 2]? = some rec.right := by
  obtain ⟨hi, rfl⟩ := List.getElem?_eq_some_iff.mp h
  have hdrop := drop_bytesOfRecords recs i
  rw [List.drop_eq_getElem_cons hi, bytesOfRecords] at hdrop
  have hbyte (k : Nat) : (bytesOfRecords recs)[3 * i + k]? = ((bytesOfRecords recs).drop (3 * i))[k]? :=
    List.getElem?_drop.symm
  rw [hdrop] at hbyte
  exact ⟨hbyte 0, hbyte 1, hbyte 2⟩

/-! ## The obligations -/

/-- Settles O31: neither the host's turn nor what follows it writes the program store. -/
theorem programStoreIsNeverWritten : Obligations.ProgramStoreIsNeverWritten :=
  ⟨fun _ s _ h => (fetchAndStep_next_image h).trans (State.hostTurn_image s),
    fun _ s _ h => (fetchAndStep_fault_image h).trans (State.hostTurn_image s)⟩

/-- Settles O48: the bytes that split are exactly the bytes of a list of records, three a record. -/
theorem recordsLieThreeBytesApart : Obligations.RecordsLieThreeBytesApart := by
  refine ⟨fun bytes recs h => ?_, recordsOfBytes_bytesOfRecords, fun bytes hlen => ?_⟩
  · rw [eq_bytesOfRecords h]
    exact ⟨length_bytesOfRecords recs, fun _ _ => getElem?_bytesOfRecords⟩
  · refine Option.eq_none_iff_forall_ne_some.mpr fun recs h => hlen ?_
    rw [eq_bytesOfRecords h, length_bytesOfRecords, Nat.mul_mod_right]

/-- Settles O30: the host's turn leaves the image as long as it was, and the running core refuses it. -/
theorem imageOver256RecordsIsRefused : Obligations.ImageOver256RecordsIsRefused := by
  intro m s hr hl
  have hl' : maxRecords < s.hostTurn.image.length := by rwa [State.hostTurn_image]
  exact fetchAndStep_tooLong hr hl'

end Sys2Proof.Proofs
end

section
/-! Proofs of the encoding's obligations (30_encoding.md): the decoder of the opcode byte, the encoder against the decoder, and the
assembler. -/

namespace Sys2Proof.Proofs

open Sys2Proof Sys2Proof.Machine Sys2Proof.Claims

/-! ## The opcode byte -/

/-- The legal opcode byte of an operation in a mode: its code, with bit 0 set for an immediate (30_encoding.md R53). -/
def opcodeByte (m : OpcodeMap) (op : Operation) : Mode → Byte
  | .registerOperand => m op
  | .immediateOperand => m op ||| 0x01

/-- The mode as the complement of a clear bit 0 (30_encoding.md R41). -/
theorem modeOf_eq (b : Byte) : modeOf b = if b.getLsbD 0 = false then .registerOperand else .immediateOperand := by
  unfold modeOf
  cases b.getLsbD 0 <;> rfl

/-- A byte in register mode is its own family code. -/
theorem familyOf_of_register : ∀ b : Byte, modeOf b = .registerOperand → familyOf b = b := by decide

/-- A byte in immediate mode is its family code with bit 0 set. -/
theorem familyOf_or_one_of_immediate : ∀ b : Byte, modeOf b = .immediateOperand → familyOf b ||| 0x01 = b := by decide

/-- Masking off bit 0 leaves the high nibble. -/
theorem familyOf_nibble : ∀ b : Byte, familyOf b >>> 4 = b >>> 4 := by decide

/-- A byte of `op`'s family is `op`'s opcode byte in the byte's own mode. -/
theorem opcodeByte_modeOf {m : OpcodeMap} {op : Operation} {b : Byte} (h : m op = familyOf b) : opcodeByte m op (modeOf b) = b := by
  cases hmode : modeOf b with
  | registerOperand => exact h.trans (familyOf_of_register b hmode)
  | immediateOperand => rw [opcodeByte, h, familyOf_or_one_of_immediate b hmode]

/-- A byte the decoder accepts is the opcode byte of some operation in some mode. -/
theorem exists_opcodeByte_of_isOk {m : OpcodeMap} {b : Byte} (h : (decodeOp m b).isOk = true) :
    ∃ op mode, opcodeByte m op mode = b := by
  cases hd : decodeOp m b with
  | error k => rw [hd] at h; cases h
  | ok p =>
    obtain ⟨hcode, -⟩ := decodeOp_ok hd
    exact ⟨p.1, modeOf b, opcodeByte_modeOf hcode⟩

/-- The decoder gives back the operation and the mode an opcode byte is made of. -/
theorem decodeOp_opcodeByte {m : OpcodeMap} (hm : m.Admissible) (op : Operation) :
    ∀ mode : Mode, decodeOp m (opcodeByte m op mode) = .ok (op, mode)
  | .registerOperand => decodeOp_code hm op
  | .immediateOperand => decodeOp_code_or_one hm op

/-- A byte with an operation's family code decodes to that operation (30_encoding.md R48). -/
theorem decodeOp_of_familyOf {m : OpcodeMap} (hm : m.Admissible) {op : Operation} {b : Byte} (h : m op = familyOf b) :
    decodeOp m b = .ok (op, modeOf b) := by
  simpa only [opcodeByte_modeOf h] using decodeOp_opcodeByte hm op (modeOf b)

/-- The illegal opcode bytes are those of no operation's family (30_encoding.md R48). -/
theorem decodeOp_eq_error_iff {m : OpcodeMap} {b : Byte} :
    decodeOp m b = .error .invalidOpcode ↔ ∀ op, m op ≠ familyOf b := by
  refine ⟨fun h => (decodeOp_error h).2, fun h => ?_⟩
  rw [decodeOp, findOp_none.mpr h]

/-! ## Counting the legal opcode bytes -/

/-- Every operation in both modes. -/
def opcodeForms : List (Operation × Mode) :=
  Operation.all.flatMap fun op => [(op, .registerOperand), (op, .immediateOperand)]

/-- No operation is left out, in either mode. -/
theorem mem_opcodeForms (op : Operation) (mode : Mode) : (op, mode) ∈ opcodeForms :=
  List.mem_flatMap.mpr ⟨op, op.mem_all, by cases mode <;> simp⟩

/-- The opcode byte of every operation in both modes. -/
def legalOpcodes (m : OpcodeMap) : List Byte := opcodeForms.map fun p => opcodeByte m p.1 p.2

/-- The legal opcode bytes are those the decoder accepts. -/
theorem mem_legalOpcodes {m : OpcodeMap} (hm : m.Admissible) {b : Byte} : b ∈ legalOpcodes m ↔ (decodeOp m b).isOk = true := by
  constructor
  · intro h
    obtain ⟨⟨op, mode⟩, -, rfl⟩ := List.mem_map.mp h
    rw [decodeOp_opcodeByte hm]
    rfl
  · intro h
    obtain ⟨op, mode, rfl⟩ := exists_opcodeByte_of_isOk h
    exact List.mem_map.mpr ⟨(op, mode), mem_opcodeForms op mode, rfl⟩

/-- No two legal opcode bytes are equal, since each decodes to its own operation and mode. -/
theorem legalOpcodes_nodup {m : OpcodeMap} (hm : m.Admissible) : (legalOpcodes m).Nodup := by
  have hforms : opcodeForms.Nodup := by decide
  refine List.Pairwise.map _ (fun p q hne h => hne ?_) hforms
  have hdecode : decodeOp m (opcodeByte m p.1 p.2) = decodeOp m (opcodeByte m q.1 q.2) := congrArg (decodeOp m) h
  rw [decodeOp_opcodeByte hm, decodeOp_opcodeByte hm] at hdecode
  exact Except.ok.inj hdecode

/-- Fourteen operations in two modes make 28 legal opcode bytes (30_encoding.md R49). -/
theorem length_filter_legal {m : OpcodeMap} (hm : m.Admissible) :
    ((List.range 256).filter fun n => (decodeOp m (BitVec.ofNat 8 n)).isOk).length = 28 := by
  have hnodup : ((legalOpcodes m).map BitVec.toNat).Nodup :=
    List.Pairwise.map _ (fun _ _ hne h => hne (BitVec.eq_of_toNat_eq h)) (legalOpcodes_nodup hm)
  have hperm : ((List.range 256).filter fun n => (decodeOp m (BitVec.ofNat 8 n)).isOk).Perm ((legalOpcodes m).map BitVec.toNat) := by
    refine (List.perm_ext_iff_of_nodup (List.Pairwise.filter _ List.nodup_range) hnodup).mpr fun n => ?_
    rw [List.mem_filter, List.mem_range, ← mem_legalOpcodes hm, List.mem_map]
    constructor
    · exact fun ⟨hn, hmem⟩ => ⟨_, hmem, BitVec.toNat_ofNat .. ▸ Nat.mod_eq_of_lt hn⟩
    · rintro ⟨b, hmem, rfl⟩
      exact ⟨b.isLt, by rwa [BitVec.ofNat_toNat, BitVec.setWidth_eq]⟩
  rw [hperm.length_eq]
  rfl

/-- Under REF_OPCODES the decoder accepts the bytes of the list (30_encoding.md R49). -/
theorem decodeOp_refOpcodes_isOk_iff (b : Byte) : (decodeOp refOpcodes b).isOk = true ↔ b ∈ refLegalBytes := by
  constructor
  · intro h
    obtain ⟨op, mode, rfl⟩ := exists_opcodeByte_of_isOk h
    cases op <;> cases mode <;> decide
  · have hall : (refLegalBytes.all fun b => (decodeOp refOpcodes b).isOk) = true := by decide
    exact List.all_eq_true.mp hall b

/-! ## Records -/

/-- The record of an opcode byte and two operand bytes decodes to the instruction made of them. -/
theorem decodeRecord_opcodeByte {m : OpcodeMap} (hm : m.Admissible) (op : Operation) (mode : Mode) (l r : Byte) :
    decodeRecord m ⟨opcodeByte m op mode, l, r⟩ = .ok (makeInstr op mode l r) := by
  rw [decodeRecord, decodeOp_opcodeByte hm]

/-- The operand bytes have no part in accepting a record (30_encoding.md R48). -/
theorem decodeRecord_isOk (m : OpcodeMap) (rec : Record) : (decodeRecord m rec).isOk = (decodeOp m rec.opcode).isOk := by
  unfold decodeRecord
  cases decodeOp m rec.opcode <;> rfl

/-- The right operand of the instruction made: the mode and the right byte, but none for a branch (30_encoding.md R42). -/
theorem makeInstr_rightOperand (op : Operation) (mode : Mode) (l r : Byte) :
    (makeInstr op mode l r).rightOperand = if op.opClass = .branch then none else some (mode, r) := by
  cases op <;> cases mode <;> rfl

/-- The record of an opcode byte and two operand bytes decodes to an instruction with that operation, left byte and right operand. -/
theorem exists_decodeRecord_opcodeByte {m : OpcodeMap} (hm : m.Admissible) {op : Operation} (mode : Mode) {l r : Byte}
    {right : Option (Mode × Byte)} (hright : (if op.opClass = .branch then none else some (mode, r)) = right) :
    ∃ i, decodeRecord m ⟨opcodeByte m op mode, l, r⟩ = .ok i ∧ i.op = op ∧ i.left = l ∧ i.rightOperand = right :=
  ⟨_, decodeRecord_opcodeByte hm op mode l r, makeInstr_op .., makeInstr_left .., (makeInstr_rightOperand ..).trans hright⟩

/-- An instruction with a right operand is the one made of its parts. -/
theorem makeInstr_of_rightOperand {i : Instr} {mode : Mode} {r : Byte} (h : i.rightOperand = some (mode, r)) :
    makeInstr i.op mode i.left r = i := by
  cases i <;> cases h <;> rfl

/-- A branch is the one made of its operation and target, whatever the mode and the right byte. -/
theorem makeInstr_of_no_rightOperand {i : Instr} (h : i.rightOperand = none) (mode : Mode) (r : Byte) :
    makeInstr i.op mode i.left r = i := by
  cases i <;> cases h <;> rfl

/-- The record of an instruction with a right operand (30_encoding.md R53). -/
theorem encode_of_rightOperand (m : OpcodeMap) {i : Instr} {mode : Mode} {r : Byte} (h : i.rightOperand = some (mode, r)) :
    encode m i = ⟨opcodeByte m i.op mode, i.left, r⟩ := by
  cases i <;> cases h <;> rfl

/-- The record of a branch (30_encoding.md R53). -/
theorem encode_of_no_rightOperand (m : OpcodeMap) {i : Instr} (h : i.rightOperand = none) :
    encode m i = encodeBranch m i.op i.left := by
  cases i <;> cases h <;> rfl

/-- The record of an instruction decodes to it. -/
theorem decodeRecord_encode {m : OpcodeMap} (hm : m.Admissible) (i : Instr) : decodeRecord m (encode m i) = .ok i := by
  cases hr : i.rightOperand with
  | none =>
    calc decodeRecord m (encode m i)
      _ = decodeRecord m ⟨opcodeByte m i.op .registerOperand, i.left, 0x00⟩ := congrArg _ (encode_of_no_rightOperand m hr)
      _ = .ok i := by rw [decodeRecord_opcodeByte hm, makeInstr_of_no_rightOperand hr]
  | some p =>
    rw [encode_of_rightOperand m hr, decodeRecord_opcodeByte hm, makeInstr_of_rightOperand hr]

/-- The bytes of a legal record followed by any others decode to its instruction, with those left over (20_memory.md R28). -/
theorem decodeBytes_of_decodeRecord {m : OpcodeMap} {rec : Record} {i : Instr} (h : decodeRecord m rec = .ok i) (rest : List Byte) :
    decodeBytes m (bytesOfRecords [rec] ++ rest) = .ok (i, rest) := by
  simp [bytesOfRecords, decodeBytes, h]

/-! ## Assembler lines -/

/-- The operand a disassembler prints for an address stands for that address. -/
@[simp] theorem AsmReg.addr_ofAddr (a : Byte) : (AsmReg.ofAddr a).addr = a := by
  unfold AsmReg.ofAddr
  split
  · next hc => exact address_of_decodeAddr hc
  · rfl

/-- The line a disassembler prints for an instruction assembles to the instruction's record (30_encoding.md R53). -/
theorem assemble_asmOfInstr (m : OpcodeMap) (i : Instr) : (asmOfInstr i).assemble m = encode m i := by
  match hr : i.rightOperand with
  | none => simp only [asmOfInstr, hr, AsmLine.assemble, encode_of_no_rightOperand m hr]
  | some (.registerOperand, r) =>
    simp only [asmOfInstr, hr, AsmLine.assemble, AsmReg.addr_ofAddr, encode_of_rightOperand m hr, encodeReg, opcodeByte]
  | some (.immediateOperand, k) =>
    simp only [asmOfInstr, hr, AsmLine.assemble, AsmReg.addr_ofAddr, encode_of_rightOperand m hr, encodeImm, opcodeByte]

/-! ## The obligations -/

/-- Settles O46: the opcode byte gives back operation and mode, and these with the operand bytes make the instruction again. -/
theorem decodeOfEncodeIsTheInstruction : Obligations.DecodeOfEncodeIsTheInstruction :=
  fun _ hm i => ⟨decodeRecord_encode hm i, decodeBytes_of_decodeRecord (decodeRecord_encode hm i)⟩

/-- Settles O47: the operation found has the byte's family code, and the mode is the byte's bit 0, which only a branch drops. -/
theorem encodeOfDecodeIsTheRecord : Obligations.EncodeOfDecodeIsTheRecord := by
  intro m _ rec i hdec
  obtain ⟨op, hop, rfl⟩ := decodeRecord_ok hdec
  obtain ⟨hcode, -⟩ := decodeOp_ok hop
  have hright := makeInstr_rightOperand op (modeOf rec.opcode) rec.left rec.right
  by_cases hb : op.opClass = .branch
  · rw [if_pos hb] at hright
    rw [encode_of_no_rightOperand m hright, if_pos (by simp [Instr.isBranch, hb]), makeInstr_op, makeInstr_left, encodeBranch, hcode,
      familyOf]
  · rw [if_neg hb] at hright
    rw [encode_of_rightOperand m hright, if_neg (by simp [Instr.isBranch, hb]), makeInstr_op, makeInstr_left, opcodeByte_modeOf hcode]

/-- Settles O43: K2 makes the operation of a family code unique, and a record is accepted by its opcode byte alone. -/
theorem opcodeDecoderIsTheRule : Obligations.OpcodeDecoderIsTheRule := by
  refine fun m hm opcode => ⟨fun op h => ?_, decodeOp_eq_error_iff.mpr, fun l r l' r' => ?_⟩
  · rw [← modeOf_eq]
    exact decodeOp_of_familyOf hm h
  · rw [decodeRecord_isOk, decodeRecord_isOk]

/-- Settles O44: the legal bytes are the opcode bytes of 14 operations in two modes, all different, and K5 keeps 0xFE free. -/
theorem exactlyTwentyEightOpcodesAreLegal : Obligations.ExactlyTwentyEightOpcodesAreLegal := by
  refine ⟨fun m hm => ⟨length_filter_legal hm, fun b => decodeOp_eq_error_iff, ?_, ?_⟩, decodeOp_refOpcodes_isOk_iff⟩
  · exact decodeOp_eq_error_iff.mpr hm.notFE
  · exact decodeOp_eq_error_iff.mpr hm.notFE

/-- Settles O45: the byte has the high nibble of its operation's code, which K3 and K4 tie to the class. -/
theorem branchNibbleDecidesTheClass : Obligations.BranchNibbleDecidesTheClass := by
  intro m hm opcode op mode hop
  obtain ⟨hcode, -⟩ := decodeOp_ok hop
  rw [← familyOf_nibble, ← hcode]
  exact ⟨hm.branchNibble op, fun h => Decidable.byContradiction fun hb => hm.otherNibble op hb h⟩

/-- Settles O51: a line's record has the opcode byte of its operation and mode, and a printed operand stands for its address. -/
theorem assemblerAgreesWithTheEncoder : Obligations.AssemblerAgreesWithTheEncoder := by
  refine ⟨fun m hm line hwf => ?_, assemble_asmOfInstr⟩
  match line, hwf with
  | .data _ _ (.reg _), hwf =>
    exact exists_decodeRecord_opcodeByte hm .registerOperand (if_neg (by simpa [AsmLine.wellFormed] using hwf))
  | .data _ _ (.imm _), hwf =>
    exact exists_decodeRecord_opcodeByte hm .immediateOperand (if_neg (by simpa [AsmLine.wellFormed] using hwf))
  | .branch _ _, hwf =>
    exact exists_decodeRecord_opcodeByte hm .registerOperand (if_pos (by simpa [AsmLine.wellFormed] using hwf))

/-- Settles O49: the fourteen values, read off the definition. -/
theorem referenceOpcodesAreTheTable : Obligations.ReferenceOpcodesAreTheTable := ⟨rfl, rfl⟩

/-- Settles O50: the decoder evaluated on each word. -/
theorem tableWordsDecode : Obligations.TableWordsDecode := ⟨rfl, rfl, rfl, rfl, rfl, rfl⟩

end Sys2Proof.Proofs
end

section
/-! Proofs of the step's obligations (40_step.md): what one instruction reads and writes, the engine's step, and the run's loop. -/

namespace Sys2Proof.Proofs

open Sys2Proof Sys2Proof.Machine Sys2Proof.Claims

/-! ## The operands of a step -/

/-- A register operand with a valid address reads as its cell's value inside the step. -/
theorem State.rightSeen_register (s : State) {r : Byte} {c : Cell} (h : decodeAddr r = some c) :
    s.rightSeen .registerOperand r = some (s.seen c) := by
  simp [State.rightSeen, h]

/-- An instruction with a right operand is no branch. -/
theorem isBranch_of_rightOperand {i : Instr} {p : Mode × Byte} (h : i.rightOperand = some p) : i.isBranch = false := by
  cases i with
  | br | be | bne | bg | bl => cases h
  | _ => rfl

/-- An instruction without one is a branch. -/
theorem isBranch_of_no_rightOperand {i : Instr} (h : i.rightOperand = none) : i.isBranch = true := by
  cases i with
  | br | be | bne | bg | bl => rfl
  | _ => cases h

/-- An ALU operation or MOV is no branch. -/
theorem isBranch_of_alu_or_move {i : Instr} (h : i.op.opClass = .alu ∨ i.op.opClass = .move) : i.isBranch = false := by
  rcases h with h | h <;> simp [Instr.isBranch, h]

/-! ## What an instruction with a right operand writes, and where -/

/-- The value an operation writes, from the left and the right operand's values; a branch, which writes none, keeps the left one. -/
def resultOf : Operation → Byte → Byte → Byte
  | .mov, _, b => b
  | .add, a, b => aluAdd a b
  | .sub, a, b => aluSub a b
  | .lsh, a, b => aluLsh a b
  | .rsh, a, b => aluRsh a b
  | .and, a, b => aluAnd a b
  | .or, a, b => aluOr a b
  | .xor, a, b => aluXor a b
  | .cmp, a, b => compareDiff a b
  | .br, a, _ | .be, a, _ | .bne, a, _ | .bg, a, _ | .bl, a, _ => a

/-- The cell an operation writes, `c` being operand_left's: CR for CMP (40_step.md R59). -/
def writtenCell : Operation → Cell → Cell
  | .cmp, _ => .conditionResult
  | _, c => c

/-- On readable operands an instruction writes its result into its one cell, on the copy with PC advanced. -/
theorem exec_of_readable {i : Instr} {s : State} {mode : Mode} {r b : Byte} {c : Cell} (ho : i.rightOperand = some (mode, r))
    (hl : decodeAddr i.left = some c) (hr : s.rightSeen mode r = some b) :
    exec i s = .next (s.advancePc.setValue (writtenCell i.op c) (resultOf i.op (s.seen c) b)) := by
  cases i with
  | movReg | movImm => cases ho; exact movStep_ok hl hr
  | cmpReg | cmpImm => cases ho; exact cmpStep_ok hl hr
  | br | be | bne | bg | bl => cases ho
  | _ => cases ho; exact aluStep_ok hl hr

/-- On an unreadable operand it faults. -/
theorem exec_of_unreadable {i : Instr} {s : State} {mode : Mode} {r : Byte} (ho : i.rightOperand = some (mode, r))
    (h : decodeAddr i.left = none ∨ s.rightSeen mode r = none) : exec i s = .next (s.raise .invalidRegisterAddress) := by
  cases i with
  | movReg | movImm => cases ho; exact movStep_fault h
  | cmpReg | cmpImm => cases ho; exact cmpStep_fault h
  | br | be | bne | bg | bl => cases ho
  | _ => cases ho; exact aluStep_fault h

/-- An ALU operation or MOV writes operand_left's cell. -/
theorem writtenCell_of_alu_or_move {op : Operation} (h : op.opClass = .alu ∨ op.opClass = .move) (c : Cell) :
    writtenCell op c = c := by
  cases op with
  | cmp => simp [Operation.opClass] at h
  | _ => rfl

/-- The value an ALU operation or MOV writes is the spec's formula on naturals. -/
theorem resultOf_toNat {op : Operation} (h : op.opClass = .alu ∨ op.opClass = .move) (a b : Byte) :
    (resultOf op a b).toNat = writtenBy op a.toNat b.toNat := by
  cases op with
  | mov => rfl
  | add => exact aluAdd_toNat a b
  | sub => exact aluSub_toNat a b
  | lsh => exact aluLsh_toNat a b
  | rsh => exact aluRsh_toNat a b
  | and => exact aluAnd_toNat a b
  | or => exact aluOr_toNat a b
  | xor => exact aluXor_toNat a b
  | cmp | br | be | bne | bg | bl => simp [Operation.opClass] at h

/-- The same, as a byte. -/
theorem resultOf_eq {op : Operation} (h : op.opClass = .alu ∨ op.opClass = .move) (a b : Byte) :
    resultOf op a b = BitVec.ofNat 8 (writtenBy op a.toNat b.toNat) := by
  rw [← resultOf_toNat h, BitVec.ofNat_toNat, BitVec.setWidth_eq]

/-! ## Instructions by the validity of their addresses -/

/-- An instruction with valid addresses that is no branch makes the one write of its destination. -/
theorem exec_wroteCell {i : Instr} (s : State) (hb : i.isBranch = false) (hv : hasInvalidAddress i = false) :
    ∃ t d v, exec i s = .next t ∧ destination i = some d ∧ WroteCell s t d v := by
  rcases exec_data_cases i s hb with ⟨-, d, v, hd, hx⟩ | ⟨hinv, -⟩
  · exact ⟨_, d, v, hx, hd, wroteCell_setValue s d v⟩
  · rw [hv] at hinv
    cases hinv

/-- If PC is not its destination, it leaves PC advanced. -/
theorem exec_pc_advanced {i : Instr} (s : State) (hb : i.isBranch = false) (hv : hasInvalidAddress i = false)
    (hd : destination i ≠ some .programCounter) : ∃ t, exec i s = .next t ∧ t.pc = s.pc + 1 := by
  obtain ⟨t, d, v, hx, hdest, hw⟩ := exec_wroteCell s hb hv
  exact ⟨t, hx, hw.advanced fun h => hd (h ▸ hdest)⟩

/-- An instruction with an invalid address faults. -/
theorem exec_of_hasInvalidAddress {i : Instr} (s : State) (h : hasInvalidAddress i = true) :
    exec i s = .next (s.raise .invalidRegisterAddress) := by
  rcases exec_cases i s with ⟨hv, -⟩ | ⟨hb, -⟩ | ⟨-, -, hx⟩
  · rw [h] at hv
    cases hv
  · rw [hasInvalidAddress_branch i hb] at h
    cases h
  · exact hx

/-- Outside the register file an instruction changes at most the status, to the one fault it can raise. -/
theorem exec_outside_registers {i : Instr} {s t : State} (h : exec i s = .next t) :
    (t.status = s.status ∨ t.status = .faulted .invalidRegisterAddress) ∧
      t.image = s.image ∧ t.schedule = s.schedule ∧ t.frames = s.frames := by
  rcases exec_cases i s with ⟨-, -, d, v, -, hx⟩ | ⟨-, hx⟩ | ⟨-, -, hx⟩ <;> cases hx.symm.trans h
  case inl => simp
  case inr.inl => exact ⟨.inl rfl, rfl, rfl, rfl⟩
  case inr.inr => exact ⟨.inr rfl, rfl, rfl, rfl⟩

/-! ## The final PC -/

/-- The destination of an ALU operation or MOV is operand_left's cell. -/
theorem destination_of_alu_or_move {i : Instr} (h : i.op.opClass = .alu ∨ i.op.opClass = .move) :
    destination i = decodeAddr i.left := by
  rcases h with h | h <;> simp [destination, h]

/-- A branch is taken where the spec's table says (42_compare_branch.md R83). -/
theorem predOf_iff_takenAt {op : Operation} (h : op.opClass = .branch) (cr : Byte) :
    predOf op cr = true ↔ takenAt op cr.toNat := by
  cases op with
  | br => exact iff_of_true rfl trivial
  | be => exact predBE_iff cr
  | bne => exact predBNE_iff cr
  | bg => exact predBG_iff cr
  | bl => exact predBL_iff cr
  | _ => cases h

/-- A branch that is taken ends at its target. -/
theorem exec_branch_taken {i : Instr} {s : State} (h : i.op.opClass = .branch) (ht : takenAt i.op s.cr.toNat) :
    exec i s = .next { s with pc := i.left } := by
  rw [exec_branch i s (by simp [Instr.isBranch, h]), if_pos ((predOf_iff_takenAt h s.cr).mpr ht)]

/-- A branch that is not taken ends at the advanced PC. -/
theorem exec_branch_not_taken {i : Instr} {s : State} (h : i.op.opClass = .branch) (ht : ¬ takenAt i.op s.cr.toNat) :
    exec i s = .next { s with pc := s.pc + 1 } := by
  rw [exec_branch i s (by simp [Instr.isBranch, h]), if_neg (mt (predOf_iff_takenAt h s.cr).mp ht)]

/-! ## Noninterference: the step under another program store, schedule and record of what was shown -/

section WithRun

variable (s : State) (image : List Record) (schedule : HostSchedule) (frames : List (Vector Byte 4))

@[simp] theorem State.seen_withRun (c : Cell) : (s.withRun image schedule frames).seen c = s.seen c := by
  cases c <;> rfl

@[simp] theorem State.rightSeen_withRun (mode : Mode) (r : Byte) :
    (s.withRun image schedule frames).rightSeen mode r = s.rightSeen mode r := by
  cases mode with
  | immediateOperand => rfl
  | registerOperand => cases h : decodeAddr r <;> simp [State.rightSeen, h]

theorem State.setValue_withRun (c : Cell) (v : Byte) :
    (s.withRun image schedule frames).setValue c v = (s.setValue c v).withRun image schedule frames := by
  cases c <;> rfl

theorem State.advancePc_withRun :
    (s.withRun image schedule frames).advancePc = s.advancePc.withRun image schedule frames := rfl

theorem State.raise_withRun (k : FaultKind) :
    (s.withRun image schedule frames).raise k = (s.raise k).withRun image schedule frames := rfl

/-- An instruction depends on the core alone: its operands read the same, and its write, jump or fault is the same. -/
theorem exec_withRun (i : Instr) :
    exec i (s.withRun image schedule frames) = mapState (·.withRun image schedule frames) (exec i s) := by
  match ho : i.rightOperand with
  | none =>
    have hb := isBranch_of_no_rightOperand ho
    rw [exec_branch i _ hb, exec_branch i s hb]
    rfl
  | some (mode, r) =>
    by_cases hbad : decodeAddr i.left = none ∨ s.rightSeen mode r = none
    · rw [exec_of_unreadable ho hbad, exec_of_unreadable ho (by simpa using hbad), mapState_next, State.raise_withRun]
    · obtain ⟨hl, hr⟩ := not_or.mp hbad
      obtain ⟨c, hl⟩ := Option.ne_none_iff_exists'.mp hl
      obtain ⟨b, hr⟩ := Option.ne_none_iff_exists'.mp hr
      rw [exec_of_readable ho hl hr, exec_of_readable ho hl (by simpa using hr), mapState_next, State.seen_withRun,
        State.advancePc_withRun, State.setValue_withRun]

/-- So does the engine's step of a record. -/
theorem engineStep_withRun (m : OpcodeMap) (rec : Record) :
    engineStep m rec (s.withRun image schedule frames) = mapState (·.withRun image schedule frames) (engineStep m rec s) := by
  cases h : decodeRecord m rec with
  | ok i => rw [engineStep_ok _ h, engineStep_ok _ h, exec_withRun]
  | error k => rw [engineStep_error _ h, engineStep_error _ h, mapState_next, State.raise_withRun]

end WithRun

/-! ## The host's turn before a step -/

/-- Host actions leave the program store. -/
@[simp] theorem State.act_image (s : State) (actions : List HostAction) : (s.act actions).image = s.image :=
  State.act_induct (P := fun u => u.image = s.image) (Q := fun _ => True)
    (fun u a _ h => (State.hostAct_image u a).trans h) rfl fun _ _ => trivial

/-- A poll or a render leaves status and PC (60_exceptions.md R109). -/
theorem State.hostAct_of_keepsRun (s : State) {a : HostAction} (h : a.keepsRun = true) :
    (s.hostAct a).status = s.status ∧ (s.hostAct a).pc = s.pc := by
  cases a with
  | poll | render => exact ⟨rfl, rfl⟩
  | reset => cases h

/-- So does any number of them. -/
theorem State.act_of_keepsRun (s : State) {actions : List HostAction} (h : ∀ a ∈ actions, a.keepsRun = true) :
    (s.act actions).status = s.status ∧ (s.act actions).pc = s.pc := by
  refine State.act_induct (P := fun u => u.status = s.status ∧ u.pc = s.pc) (Q := fun a => a.keepsRun = true)
    (fun u a ha ⟨hs, hp⟩ => ?_) ⟨rfl, rfl⟩ h
  obtain ⟨hstatus, hpc⟩ := State.hostAct_of_keepsRun u ha
  exact ⟨hstatus.trans hs, hpc.trans hp⟩

/-! ## Stops and runs -/

/-- A faulted core takes no step (40_step.md R56). -/
theorem fetchAndStep_of_faulted (m : OpcodeMap) {s : State} {k : FaultKind} (h : s.status = .faulted k) :
    fetchAndStep m s = .fault (.stoppedFaulted k s) := by
  simp [fetchAndStep, h]

/-- Nor does an ended one. -/
theorem fetchAndStep_of_ended (m : OpcodeMap) {s : State} (h : s.status = .ended) :
    fetchAndStep m s = .fault (.stoppedEnded s) := by
  simp [fetchAndStep, h]

/-- There is no record at an index of N or more (20_memory.md R27). -/
theorem State.fetch_eq_none {s : State} {n : Nat} (h : s.image.length ≤ n) : s.fetch n = none :=
  List.getElem?_eq_none h

/-- A run under the state's own schedule stops where its first turn stops. -/
theorem runWith_of_fault {m : OpcodeMap} {s : State} {r : Fault} (h : stepWith m s = .fault r) (k : Nat) :
    runWith m (k + 1) s = .fault r := by
  rw [runWith, h]

/-- A run under any schedule stops where its first turn stops. -/
theorem runUnder_of_fault {m : OpcodeMap} {sch : Nat → List HostAction} {s : State} {r : Fault}
    (h : turnWith m (sch 0) s = .fault r) (k : Nat) : runUnder m sch (k + 1) s = .fault r := by
  rw [runUnder, h]

/-- A run under any schedule goes on from where its first turn leads. -/
theorem runUnder_of_next {m : OpcodeMap} {sch : Nat → List HostAction} {s t : State} (h : turnWith m (sch 0) s = .next t) (k : Nat) :
    runUnder m sch (k + 1) s = runUnder m (fun n => sch (n + 1)) k t := by
  rw [runUnder, h]

/-- A BR to the PC it stands at changes nothing. -/
theorem exec_br_self (s : State) : exec (.br s.pc) s = .next s := branchStep_eq predBR s.pc s

/-- A turn without a reset at a BR to its own index is the host's part of it alone. -/
theorem turnWith_br_self {m : OpcodeMap} {s : State} {rec : Record} {actions : List HostAction} (hs : s.status = .running)
    (hwf : ProgramStore.wf s.image) (hf : s.fetch s.pc.toNat = some rec) (hd : decodeRecord m rec = .ok (.br s.pc))
    (hk : ∀ a ∈ actions, a.keepsRun = true) : turnWith m actions s = .next (s.act actions) := by
  obtain ⟨hstatus, hpc⟩ := State.act_of_keepsRun s hk
  have himage := State.act_image s actions
  have hfetch : (s.act actions).fetch (s.act actions).pc.toNat = some rec := by
    rwa [State.fetch, himage, hpc]
  rw [turnWith, fetchAndStep_fetched (hstatus.trans hs) (himage ▸ hwf) hfetch, engineStep_ok _ hd, ← hpc, exec_br_self]

/-! ## The obligations -/

/-- Settles O18: the write, the branch and the fault each leave every other cell and all but the status outside the register file. -/
theorem stepWritesOnlyItsDestination : Obligations.StepWritesOnlyItsDestination :=
  fun _ _ _ hx => ⟨fun _ hp hd => exec_value_of_ne_destination hx hp hd, exec_outside_registers hx⟩

/-- Settles O20, row by row: an instruction that does not write PC leaves it advanced, a write to PC is final, a branch sets PC by its
predicate, and a fault keeps it. -/
theorem finalPcOfEveryStep : Obligations.FinalPcOfEveryStep := by
  refine fun i s => ⟨fun hop hv hl => ?_, fun hop _ hl mode r b ho hr => ?_, fun hop hv => ?_, fun hop ht => ?_,
    fun hop ht => ?_, fun hv => ?_⟩
  · refine exec_pc_advanced s (isBranch_of_alu_or_move hop) hv fun hd => hl ?_
    rw [destination_of_alu_or_move hop] at hd
    exact (address_of_decodeAddr hd).symm
  · have hpc : decodeAddr i.left = some .programCounter := hl ▸ decodeAddr_pcAddr
    refine ⟨_, exec_of_readable ho hpc hr, ?_⟩
    rw [writtenCell_of_alu_or_move hop, State.setValue_pc_self, resultOf_eq hop]
    rfl
  · exact exec_pc_advanced s (by simp [Instr.isBranch, hop, Operation.opClass]) hv
      (by simp [destination, hop, Operation.opClass])
  · exact ⟨_, exec_branch_taken hop ht, rfl⟩
  · exact ⟨_, exec_branch_not_taken hop ht, rfl⟩
  · exact ⟨_, exec_of_hasInvalidAddress s hv, rfl, rfl⟩

/-- Settles O22: both operands read the one value `s.seen c`, and the write comes after both reads. -/
theorem sameRegisterIsReadTwiceBeforeTheWrite : Obligations.SameRegisterIsReadTwiceBeforeTheWrite := by
  intro s a c ha
  have hr := State.rightSeen_register s ha
  refine ⟨⟨_, aluStep_ok ha hr, ?_⟩, ⟨_, aluStep_ok ha hr, ?_⟩, ⟨_, aluStep_ok ha hr, ?_⟩, ⟨_, aluStep_ok ha hr, ?_⟩,
    ⟨_, cmpStep_ok ha hr, ?_⟩⟩
  · rw [State.value_setValue_self]
    exact BitVec.sub_self (s.seen c)
  · rw [State.value_setValue_self, aluAdd_toNat, Nat.two_mul]
  · rw [State.value_setValue_self]
    exact BitVec.xor_self
  · rw [State.value_setValue_self, aluAnd, BitVec.and_self]
  · exact BitVec.sub_self (s.seen c)

/-- Settles O24: an illegal record faults, and a legal one does one of the three things an instruction can do. -/
theorem stepIsAllOrNothing : Obligations.StepIsAllOrNothing := by
  intro m rec s hs
  cases hd : decodeRecord m rec with
  | error k =>
    obtain ⟨rfl, -⟩ := decodeRecord_error hd
    exact ⟨_, engineStep_error s hd, .inr ⟨.inl rfl, _, rfl⟩⟩
  | ok i =>
    rw [engineStep_ok s hd]
    cases hv : hasInvalidAddress i with
    | true => exact ⟨_, exec_of_hasInvalidAddress s hv, .inr ⟨.inr ⟨i, rfl, hv⟩, _, rfl⟩⟩
    | false =>
      cases hb : i.isBranch with
      | false =>
        obtain ⟨t, d, v, hx, hdest, hw⟩ := exec_wroteCell s hb hv
        exact ⟨t, hx, .inl ⟨i, rfl, hv, hw.status.trans hs, .inl ⟨hb, d, v, hdest, hw⟩⟩⟩
      | true =>
        refine ⟨_, exec_branch i s hb, .inl ⟨i, rfl, hv, hs, .inr ⟨hb, ?_⟩⟩⟩
        split
        · exact .inl rfl
        · exact .inr rfl

/-- Settles O26: an instruction and the fault of an illegal record read the core alone. -/
theorem stepCompletesAndDependsOnCoreAndRecord : Obligations.StepCompletesAndDependsOnCoreAndRecord :=
  ⟨engineStep_completes, fun m rec s image schedule frames => engineStep_withRun s image schedule frames m rec⟩

/-- Settles O54, by induction on the number of turns: each turn leads to a state of the same kind. -/
theorem branchToItselfRunsForEver : Obligations.BranchToItselfRunsForEver := by
  intro m sch s rec hs hwf hf hd hk k
  induction k generalizing sch s with
  | zero => exact ⟨s, rfl, hs, rfl, rfl⟩
  | succ k ih =>
    obtain ⟨hstatus, hpc⟩ := State.act_of_keepsRun s (hk 0)
    have himage := State.act_image s (sch 0)
    rw [runUnder_of_next (turnWith_br_self hs hwf hf hd (hk 0)), ← hpc, ← himage]
    refine ih _ _ (hstatus.trans hs) (himage ▸ hwf) ?_ (hpc ▸ hd) fun n => hk (n + 1)
    rwa [State.fetch, himage, hpc]

/-- Settles O21: a read of PC inside the step sees the advanced value, and a write to it comes last. -/
theorem pcReadsAsAdvanced : Obligations.PcReadsAsAdvanced := by
  intro s g k
  have hg := decodeAddr_address (.general g)
  have hpc : decodeAddr 0x16 = some .programCounter := decodeAddr_pcAddr
  have hread := State.rightSeen_register s hpc
  have himm : s.rightSeen .immediateOperand k = some k := rfl
  refine ⟨⟨_, movStep_ok hg hread, ?_⟩, ⟨_, aluStep_ok hg hread, ?_⟩, ⟨_, cmpStep_ok hpc himm, rfl, rfl⟩,
    ⟨_, aluStep_ok hpc himm, rfl⟩, ⟨_, movStep_ok hpc himm, rfl⟩⟩
  · exact State.value_setValue_self _ (.general g) _
  · exact State.value_setValue_self _ (.general g) _

/-- Settles O27: the host's turn leaves the program store, so the record at PC is fetched and its instruction runs. -/
theorem stepRunsTheRecordAtPc : Obligations.StepRunsTheRecordAtPc := by
  intro m s rec i hs hwf hf hd
  have hfetch : s.hostTurn.fetch s.hostTurn.pc.toNat = some rec := by
    rwa [State.fetch, State.hostTurn_image]
  have hstep : stepWith m s = exec i s.hostTurn := by
    rw [stepWith, fetchAndStep_fetched hs (by rwa [State.hostTurn_image]) hfetch, engineStep_ok _ hd]
  exact ⟨hstep, fun hm => by rwa [step, ← hm]⟩

/-- Settles O28: the loop looks at the status the host's turn leaves. -/
theorem stoppedCoreTakesNoStep : Obligations.StoppedCoreTakesNoStep :=
  fun m _ => ⟨fun _ h => fetchAndStep_of_faulted m h, fun h => fetchAndStep_of_ended m h⟩

/-- Settles O29: no record is fetched at PC, so the first turn ends the run, and a run stops where its first turn does. -/
theorem runEndsWhereThereIsNoRecord : Obligations.RunEndsWhereThereIsNoRecord := by
  refine ⟨fun m s hs hwf hl => ?_, fun m sch k s hs hwf hl => ?_⟩
  · rw [← State.hostTurn_image s] at hwf hl
    have hstep : stepWith m s = .fault (.runEnded { s.hostTurn with status := .ended }) :=
      fetchAndStep_ended hs hwf (State.fetch_eq_none hl)
    exact ⟨hstep, runWith_of_fault hstep⟩
  · rw [← State.act_image s (sch 0)] at hwf hl
    exact runUnder_of_fault (fetchAndStep_ended hs hwf (State.fetch_eq_none hl)) k

end Sys2Proof.Proofs
end

section
/-! Proofs of the ALU's obligations (41_alu.md): one rule for every ALU operation, read at each of the seven. -/

namespace Sys2Proof.Proofs

open Sys2Proof Sys2Proof.Machine Sys2Proof.Claims

/-! ## Encoding, effect and faults of an operation's two forms -/

/-- The records of an operation's code, with bit 0 clear and set, are its two forms (30_encoding.md R53). -/
theorem encodedAs_makeInstr (op : Operation) :
    EncodedAs op (makeInstr op .registerOperand) (makeInstr op .immediateOperand) :=
  fun _ hm l r => ⟨decodeRecord_opcodeByte hm op .registerOperand l r, decodeRecord_opcodeByte hm op .immediateOperand l r⟩

/-- The form of an operation that is no branch keeps its mode and right byte. -/
theorem makeInstr_rightOperand_of_ne_branch {op : Operation} (h : op.opClass ≠ .branch) (mode : Mode) (l r : Byte) :
    (makeInstr op mode l r).rightOperand = some (mode, r) :=
  (makeInstr_rightOperand op mode l r).trans (if_neg h)

/-- On readable operands such a form completes, and its one write puts the operation's result into the operation's cell. -/
theorem exec_makeInstr_wroteCell {op : Operation} (h : op.opClass ≠ .branch) {s : State} {mode : Mode} {l r b : Byte} {c : Cell}
    (hl : decodeAddr l = some c) (hr : s.rightSeen mode r = some b) :
    ∃ t, exec (makeInstr op mode l r) s = .next t ∧ WroteCell s t (writtenCell op c) (resultOf op (s.seen c) b) := by
  have hx := exec_of_readable (makeInstr_rightOperand_of_ne_branch h mode l r) ((makeInstr_left op mode l r).symm ▸ hl) hr
  rw [makeInstr_op] at hx
  exact ⟨_, hx, wroteCell_setValue s _ _⟩

/-- On an invalid register address both forms fault (41_alu.md R71). -/
theorem faultsOnInvalidAddress_makeInstr {op : Operation} (h : op.opClass ≠ .branch) :
    FaultsOnInvalidAddress (makeInstr op .registerOperand) (makeInstr op .immediateOperand) := by
  have hfault (s : State) (mode : Mode) (l r : Byte) (hbad : decodeAddr l = none ∨ s.rightSeen mode r = none) :
      exec (makeInstr op mode l r) s = .next (s.raise .invalidRegisterAddress) :=
    exec_of_unreadable (makeInstr_rightOperand_of_ne_branch h mode l r) (by rwa [makeInstr_left])
  refine ⟨fun s l r hbad => hfault s _ l r (hbad.imp_right fun hr => ?_), fun s l k hl => hfault s _ l k (.inl hl)⟩
  exact State.rightSeen_eq_none.mpr ⟨rfl, hr⟩

/-! ## The rule of an ALU operation -/

/-- An ALU operation writes operand_left's cell with the spec's formula on naturals, in both modes (41_alu.md R70). -/
theorem computesInPlace_makeInstr {op : Operation} (h : op.opClass = .alu) :
    ComputesInPlace (makeInstr op .registerOperand) (makeInstr op .immediateOperand) (writtenBy op) := by
  have hwrite {s : State} {mode : Mode} {l r b : Byte} {c : Cell} (hl : decodeAddr l = some c) (hr : s.rightSeen mode r = some b) :
      ∃ t, exec (makeInstr op mode l r) s = .next t ∧
        WroteCell s t c (BitVec.ofNat 8 (writtenBy op (s.seen c).toNat b.toNat)) := by
    rw [← resultOf_eq (.inl h)]
    simpa only [writtenCell_of_alu_or_move (.inl h)] using exec_makeInstr_wroteCell (op := op) (by simp [h]) hl hr
  exact fun s l c hl => ⟨fun r c' hr => hwrite hl (State.rightSeen_register s hr), fun k => hwrite hl rfl⟩

/-- The whole rule of an ALU operation, for its two forms and its formula. -/
theorem aluRule_makeInstr {op : Operation} (h : op.opClass = .alu) :
    AluRule op (makeInstr op .registerOperand) (makeInstr op .immediateOperand) (writtenBy op) :=
  ⟨encodedAs_makeInstr op, computesInPlace_makeInstr h, faultsOnInvalidAddress_makeInstr (by simp [h])⟩

/-! ## The obligations -/

/-- Settles O4: the ALU rule at ADD, whose formula is the sum mod 256. -/
theorem addStoresSumMod256 : Obligations.AddStoresSumMod256 := aluRule_makeInstr (op := .add) rfl

/-- Settles O5: the ALU rule at SUB, whose formula is the difference mod 256. -/
theorem subStoresDifferenceMod256 : Obligations.SubStoresDifferenceMod256 := aluRule_makeInstr (op := .sub) rfl

/-- Settles O6: the ALU rule at LSH, whose formula drops the bits shifted out of bit 7. -/
theorem lshShiftsLeftLosingBits : Obligations.LshShiftsLeftLosingBits := aluRule_makeInstr (op := .lsh) rfl

/-- Settles O7: the ALU rule at RSH, whose formula is the floor of the quotient (zero fill, D19). -/
theorem rshShiftsRightWithZeroFill : Obligations.RshShiftsRightWithZeroFill := aluRule_makeInstr (op := .rsh) rfl

/-- Settles O8: the ALU rule at AND. -/
theorem andStoresBitwiseAnd : Obligations.AndStoresBitwiseAnd := aluRule_makeInstr (op := .and) rfl

/-- Settles O9: the ALU rule at OR. -/
theorem orStoresBitwiseOr : Obligations.OrStoresBitwiseOr := aluRule_makeInstr (op := .or) rfl

/-- Settles O10: the ALU rule at XOR. -/
theorem xorStoresBitwiseXor : Obligations.XorStoresBitwiseXor := aluRule_makeInstr (op := .xor) rfl

end Sys2Proof.Proofs
end

section
/-! Proofs of the compare and branch obligations (42_compare_branch.md): CMP's one write into CR, one rule for every branch read at each
of the five, and how their predicates meet. -/

namespace Sys2Proof.Proofs

open Sys2Proof Sys2Proof.Machine Sys2Proof.Claims

/-! ## CMP -/

/-- The difference CMP stores is the spec's formula on naturals, as a byte (42_compare_branch.md R82). -/
theorem compareDiff_eq (a b : Byte) : compareDiff a b = BitVec.ofNat 8 (diffMod a.toNat b.toNat) := by
  rw [diffMod, ← compareDiff_toNat, BitVec.ofNat_toNat, BitVec.setWidth_eq]

/-- On readable operands CMP's one write puts the difference into CR, in both modes. -/
theorem exec_cmp_wroteCell {s : State} {mode : Mode} {l r b : Byte} {c : Cell} (hl : decodeAddr l = some c)
    (hr : s.rightSeen mode r = some b) :
    ∃ t, exec (makeInstr .cmp mode l r) s = .next t ∧
      WroteCell s t .conditionResult (BitVec.ofNat 8 (diffMod (s.seen c).toNat b.toNat)) := by
  rw [← compareDiff_eq]
  exact exec_makeInstr_wroteCell (op := .cmp) (by decide) hl hr

/-! ## The rule of a branch -/

/-- Bit 0 of the opcode and the right byte have no part in the branch a record decodes to (30_encoding.md R42). -/
theorem branchEncodedAs_makeInstr {op : Operation} (h : op.opClass = .branch) :
    BranchEncodedAs op (makeInstr op .registerOperand · 0x00) := by
  intro m hm t r
  have hright : (makeInstr op .registerOperand t 0x00).rightOperand = none := (makeInstr_rightOperand ..).trans (if_pos h)
  have hdecode (mode : Mode) : decodeRecord m ⟨opcodeByte m op mode, t, r⟩ = .ok (makeInstr op .registerOperand t 0x00) := by
    rw [decodeRecord_opcodeByte hm, ← makeInstr_of_no_rightOperand hright mode r, makeInstr_op, makeInstr_left]
  exact ⟨hdecode .registerOperand, hdecode .immediateOperand⟩

/-- A branch sets PC to its target where its row of the table says so, else to the advanced PC (42_compare_branch.md R83, R85). -/
theorem branchesWhen_takenAt {op : Operation} (h : op.opClass = .branch) :
    BranchesWhen (makeInstr op .registerOperand · 0x00) (takenAt op) := by
  intro s t
  have hclass : (makeInstr op .registerOperand t 0x00).op.opClass = .branch := by rwa [makeInstr_op]
  refine ⟨fun ht => ?_, fun ht => ?_⟩
  · rw [exec_branch_taken hclass (by rwa [makeInstr_op]), makeInstr_left]
  · rw [exec_branch_not_taken hclass (by rwa [makeInstr_op])]

/-- The whole rule of a branch, for its row of the table. -/
theorem branchRule_makeInstr {op : Operation} (h : op.opClass = .branch) :
    BranchRule op (makeInstr op .registerOperand · 0x00) (takenAt op) :=
  ⟨branchEncodedAs_makeInstr h, branchesWhen_takenAt h⟩

/-- Of two branches with complementary predicates exactly one jumps, and the other advances. -/
theorem jumpsExactlyOne {branch branch' : Byte → Instr} {p q : Nat → Prop} (hb : BranchesWhen branch p) (hb' : BranchesWhen branch' q)
    {s : State} (hq : q s.cr.toNat ↔ ¬ p s.cr.toNat) (t : Byte) :
    (exec (branch t) s = .next { s with pc := t } ∧ exec (branch' t) s = .next { s with pc := s.pc + 1 }) ∨
    (exec (branch' t) s = .next { s with pc := t } ∧ exec (branch t) s = .next { s with pc := s.pc + 1 }) := by
  by_cases hp : p s.cr.toNat
  · exact .inl ⟨(hb s t).1 hp, (hb' s t).2 fun h => hq.mp h hp⟩
  · exact .inr ⟨(hb' s t).1 (hq.mpr hp), (hb s t).2 hp⟩

/-! ## The obligations -/

/-- Settles O11: CMP is the operation whose one write goes to CR, with the difference mod 256. -/
theorem cmpStoresDifferenceInCr : Obligations.CmpStoresDifferenceInCr := by
  refine ⟨encodedAs_makeInstr .cmp, fun s l c hl => ⟨fun r c' hr => ?_, fun k => ?_⟩,
    faultsOnInvalidAddress_makeInstr (op := .cmp) (by decide)⟩
  · exact exec_cmp_wroteCell (mode := .registerOperand) hl (State.rightSeen_register s hr)
  · exact exec_cmp_wroteCell (mode := .immediateOperand) hl rfl

/-- Settles O13: the branch rule at BR, whose predicate always holds. -/
theorem brAlwaysJumps : Obligations.BrAlwaysJumps := branchRule_makeInstr (op := .br) rfl

/-- Settles O14: the branch rule at BE. -/
theorem beJumpsWhenCrIsZero : Obligations.BeJumpsWhenCrIsZero := branchRule_makeInstr (op := .be) rfl

/-- Settles O15: the branch rule at BNE. -/
theorem bneJumpsWhenCrIsNotZero : Obligations.BneJumpsWhenCrIsNotZero := branchRule_makeInstr (op := .bne) rfl

/-- Settles O16: the branch rule at BG, which holds where CR's bit 7 is clear (D7). -/
theorem bgJumpsWhenCrIsBelow128 : Obligations.BgJumpsWhenCrIsBelow128 := branchRule_makeInstr (op := .bg) rfl

/-- Settles O17: the branch rule at BL, which holds where CR's bit 7 is set (D7). -/
theorem blJumpsWhenCrIsAbove127 : Obligations.BlJumpsWhenCrIsAbove127 := branchRule_makeInstr (op := .bl) rfl

/-- Settles O23: BG and BL, and BE and BNE, have complementary predicates, both BG's and BE's hold at 0, and a CMP leaves in CR the
difference that BG and BL read. -/
theorem branchPredicatesOverlapAndExclude : Obligations.BranchPredicatesOverlapAndExclude := by
  obtain ⟨-, hbe⟩ := beJumpsWhenCrIsZero
  obtain ⟨-, hbne⟩ := bneJumpsWhenCrIsNotZero
  obtain ⟨-, hbg⟩ := bgJumpsWhenCrIsBelow128
  obtain ⟨-, hbl⟩ := blJumpsWhenCrIsAbove127
  refine ⟨fun s t hcr => ?_, fun s t => jumpsExactlyOne hbg hbl (by omega) t, fun s t => jumpsExactlyOne hbe hbne Iff.rfl t,
    fun s l k t c hl => ?_⟩
  · have hzero : s.cr.toNat = 0 := by rw [hcr]; rfl
    exact ⟨(hbg s t).1 (by omega), (hbe s t).1 hzero⟩
  · have hdiff : (compareDiff (s.seen c) k).toNat = diffMod (s.seen c).toNat k.toNat := compareDiff_toNat _ _
    rw [← hdiff]
    exact ⟨_, cmpStep_ok (m := .immediateOperand) hl rfl, fun h => (hbg _ t).1 h, fun h => (hbl _ t).1 (Nat.not_lt.mp h)⟩

end Sys2Proof.Proofs
end

section
/-! Proof of MOV's obligation (43_move.md): MOV's one write puts the right operand's value, unchanged, into operand_left's cell. -/

namespace Sys2Proof.Proofs

open Sys2Proof Sys2Proof.Machine Sys2Proof.Claims

/-- On readable operands MOV's one write puts the right operand's value into operand_left's cell, in both modes (43_move.md R91). -/
theorem exec_mov_wroteCell {s : State} {mode : Mode} {l r b : Byte} {c : Cell} (hl : decodeAddr l = some c)
    (hr : s.rightSeen mode r = some b) : ∃ t, exec (makeInstr .mov mode l r) s = .next t ∧ WroteCell s t c b :=
  exec_makeInstr_wroteCell (op := .mov) (by decide) hl hr

/-- Settles O12: MOV is the operation whose one write is its right operand's value, the register's as the step sees it or the byte. -/
theorem movStoresRightOperand : Obligations.MovStoresRightOperand := by
  refine ⟨encodedAs_makeInstr .mov, fun s l c hl => ⟨fun r c' hr => ?_, fun k => ?_⟩,
    faultsOnInvalidAddress_makeInstr (op := .mov) (by decide)⟩
  · exact exec_mov_wroteCell (mode := .registerOperand) hl (State.rightSeen_register s hr)
  · exact exec_mov_wroteCell (mode := .immediateOperand) hl rfl

end Sys2Proof.Proofs
end

section
/-! Proofs of the obligations on faults and the host (60_exceptions.md): what a poll, a render and a whole turn change, which steps fault,
the invariant that explains a stopped status, and the machine under any host schedule. -/

namespace Sys2Proof.Proofs

open Sys2Proof Sys2Proof.Machine Sys2Proof.Claims

/-! ## The fault port -/

/-- A faulted core drives its fault's code (60_exceptions.md R93). -/
theorem State.faultOut_of_faulted {s : State} {k : FaultKind} (h : s.status = .faulted k) : s.faultOut = faultCode k := by
  simp [State.faultOut, h]

/-- Every other core drives 0. -/
theorem State.faultOut_of_not_faulted {s : State} (h : ∀ k, s.status ≠ .faulted k) : s.faultOut = 0 := by
  cases hs : s.status with
  | faulted k => exact absurd hs (h k)
  | running | ended => simp [State.faultOut, hs]

/-- No fault has the code 3. -/
theorem faultCode_ne_three (k : FaultKind) : faultCode k ≠ 3 := by
  cases k <;> decide

/-! ## What a host action changes -/

/-- A poll writes the two buttons alone (60_exceptions.md R107). -/
theorem State.value_poll_of_ne (s : State) (b0 b1 : Bool) {c : Cell} (h0 : c ≠ .button 0) (h1 : c ≠ .button 1) :
    (s.poll b0 b1).value c = s.value c := by
  cases c with
  | button i =>
    match i with
    | 0 => exact absurd rfl h0
    | 1 => exact absurd rfl h1
  | general | display | programCounter | conditionResult => rfl

/-- A poll or a render changes no cell but the buttons (60_exceptions.md R109). -/
theorem State.value_hostAct_of_keepsRun (s : State) {a : HostAction} (h : a.keepsRun = true) {c : Cell} (h0 : c ≠ .button 0)
    (h1 : c ≠ .button 1) : (s.hostAct a).value c = s.value c := by
  cases a with
  | poll b0 b1 => exact State.value_poll_of_ne s b0 b1 h0 h1
  | render => cases c <;> rfl
  | reset => cases h

/-- A turn without a reset changes no cell but the buttons. -/
theorem State.value_hostTurn_of_keepsRun {s : State} (h : ∀ a ∈ s.comingTurn, a.keepsRun = true) {c : Cell} (h0 : c ≠ .button 0)
    (h1 : c ≠ .button 1) : s.hostTurn.value c = s.value c :=
  State.hostTurn_induct_of_mem (P := fun u => u.value c = s.value c) (Q := fun a => a.keepsRun = true)
    (fun u _ ha hu => (State.value_hostAct_of_keepsRun u ha h0 h1).trans hu) (fun _ _ hu => by cases c <;> exact hu) rfl h

/-- A turn without a reset leaves the status. -/
theorem State.hostTurn_status_of_keepsRun {s : State} (h : ∀ a ∈ s.comingTurn, a.keepsRun = true) :
    s.hostTurn.status = s.status :=
  (State.act_of_keepsRun _ h).1

/-! ## The state an outcome carries -/

/-- The outcome carries the state `u`: as its next state, or as the final state of a stop (log entry 7). -/
def Carries (X : Host.Outcome State Fault Refusal) (u : State) : Prop :=
  X = .next u ∨ ∃ r, X = .fault r ∧ r.final = u

/-- Two changes that agree on the final state of a stop change the stop alike. -/
theorem Fault.mapFinal_congr {r : Fault} {f g : State → State} (h : f r.final = g r.final) : r.mapFinal f = r.mapFinal g := by
  cases r <;> simpa [Fault.mapFinal] using h

/-- Two changes that agree on the state an outcome carries change the outcome alike. -/
theorem mapState_congr {X : Host.Outcome State Fault Refusal} {f g : State → State} (h : ∀ u, Carries X u → f u = g u) :
    mapState f X = mapState g X := by
  cases X with
  | next s => exact congrArg _ (h s (.inl rfl))
  | fault r => exact congrArg _ (Fault.mapFinal_congr (h r.final (.inr ⟨r, rfl, rfl⟩)))
  | refused => rfl

/-- The state a turn of the loop carries: the stopped core it found, the core whose run ends there, or the engine's next state. -/
theorem carries_fetchAndStep {m : OpcodeMap} {s u : State} (h : Carries (fetchAndStep m s) u) :
    u = s ∨ (s.fetch s.pc.toNat = none ∧ u = { s with status := .ended }) ∨
      ∃ rec, s.status = .running ∧ s.fetch s.pc.toNat = some rec ∧ engineStep m rec s = .next u := by
  rcases h with h | ⟨r, h, rfl⟩
  · obtain ⟨hs, -, rec, hf, hx⟩ := fetchAndStep_next h
    exact .inr (.inr ⟨rec, hs, hf, hx⟩)
  · rcases fetchAndStep_fault h with ⟨-, hu⟩ | ⟨-, -, hf, hu⟩
    · exact .inl hu
    · exact .inr (.inl ⟨hf, hu⟩)

/-- The engine's step changes nothing outside the core (40_step.md R59). -/
theorem engineStep_outside_core {m : OpcodeMap} {rec : Record} {s t : State} (h : engineStep m rec s = .next t) :
    t.image = s.image ∧ t.schedule = s.schedule ∧ t.frames = s.frames := by
  rcases engineStep_next h with ⟨-, rfl⟩ | ⟨i, -, hx⟩
  · exact ⟨rfl, rfl, rfl⟩
  · exact (exec_outside_registers hx).2

/-- Nor does a turn of the loop after the host's actions. -/
theorem fetchAndStep_outside_core {m : OpcodeMap} {s u : State} (h : Carries (fetchAndStep m s) u) :
    u.image = s.image ∧ u.schedule = s.schedule ∧ u.frames = s.frames := by
  rcases carries_fetchAndStep h with rfl | ⟨-, rfl⟩ | ⟨rec, -, -, hx⟩
  · exact ⟨rfl, rfl, rfl⟩
  · exact ⟨rfl, rfl, rfl⟩
  · exact engineStep_outside_core hx

/-! ## Which steps fault, and the invariant of a run -/

/-- An instruction with valid addresses leaves the status. -/
theorem exec_status_of_valid {i : Instr} {s t : State} (hv : hasInvalidAddress i = false) (h : exec i s = .next t) :
    t.status = s.status := by
  rcases exec_cases i s with ⟨-, -, d, v, -, hx⟩ | ⟨-, hx⟩ | ⟨hinv, -, -⟩
  · cases hx.symm.trans h
    rw [State.setValue_status, State.advancePc_status]
  · cases hx.symm.trans h
    rfl
  · rw [hv] at hinv
    cases hinv

/-- A record with an illegal opcode byte is rejected whatever its operand bytes are (60_exceptions.md R95). -/
theorem decodeRecord_of_illegal {m : OpcodeMap} {rec : Record} (h : ∀ op, m op ≠ familyOf rec.opcode) :
    decodeRecord m rec = .error .invalidOpcode := by
  rw [decodeRecord, decodeOp_eq_error_iff.mpr h]

/-- A running core's status needs no explanation. -/
theorem statusExplained_of_running (m : OpcodeMap) {s : State} (h : s.status = .running) : StatusExplained m s := by
  simp [StatusExplained, h]

/-- A step of the record at PC explains the status it leaves: a fault leaves PC at that record (60_exceptions.md R94). -/
theorem engineStep_statusExplained {m : OpcodeMap} {rec : Record} {s t : State} (hs : s.status = .running)
    (hf : s.fetch s.pc.toNat = some rec) (h : engineStep m rec s = .next t) : StatusExplained m t := by
  rcases engineStep_next h with ⟨hd, rfl⟩ | ⟨i, hd, hx⟩
  · exact ⟨rec, hf, hd⟩
  · cases hv : hasInvalidAddress i with
    | false => exact statusExplained_of_running m ((exec_status_of_valid hv hx).trans hs)
    | true =>
      cases (exec_of_hasInvalidAddress s hv).symm.trans hx
      exact ⟨rec, i, hf, hd, hv⟩

/-- A host action keeps the invariant: a poll and a render touch nothing it speaks of, a reset sets the core running. -/
theorem State.inv_hostAct {m : OpcodeMap} {s : State} (h : s.Inv m) (a : HostAction) : (s.hostAct a).Inv m := by
  obtain ⟨himage, hexplained⟩ := h
  cases a with
  | poll | render => exact ⟨himage, hexplained⟩
  | reset => exact ⟨himage, trivial⟩

/-- So does the host's turn. -/
theorem State.inv_hostTurn {m : OpcodeMap} {s : State} (h : s.Inv m) : s.hostTurn.Inv m :=
  State.hostTurn_induct (P := State.Inv m) (fun _ a hu => State.inv_hostAct hu a) (fun _ _ ⟨himage, hexplained⟩ => ⟨himage, hexplained⟩) h

/-- The state a turn of the loop carries keeps it. -/
theorem fetchAndStep_inv {m : OpcodeMap} {s u : State} (h : s.Inv m) (hu : Carries (fetchAndStep m s) u) : u.Inv m := by
  obtain ⟨himage, -, -⟩ := fetchAndStep_outside_core hu
  refine ⟨himage ▸ h.image, ?_⟩
  rcases carries_fetchAndStep hu with rfl | ⟨hf, rfl⟩ | ⟨rec, hs, hf, hx⟩
  · exact h.explained
  · exact hf
  · exact engineStep_statusExplained hs hf hx

/-- The state a step carries, next or final, keeps it. -/
theorem stepWith_inv {m : OpcodeMap} {s u : State} (h : s.Inv m) (hu : Carries (stepWith m s) u) : u.Inv m :=
  fetchAndStep_inv (State.inv_hostTurn h) hu

/-! ## The turn under another schedule and another record of what was shown -/

/-- A turn of the loop reads neither the schedule nor what was shown. -/
theorem fetchAndStep_withRun (m : OpcodeMap) (s : State) (schedule : HostSchedule) (frames : List (Vector Byte 4)) :
    fetchAndStep m (s.withRun s.image schedule frames) = mapState (·.withRun s.image schedule frames) (fetchAndStep m s) := by
  rcases fetchAndStep_cases m s with ⟨k, hs, e⟩ | ⟨hs, e⟩ | ⟨hs, hl, e⟩ | ⟨hs, hl, hf, e⟩ | ⟨rec, hs, hl, hf, e⟩ <;> rw [e]
  · exact fetchAndStep_of_faulted m hs
  · exact fetchAndStep_of_ended m hs
  · exact fetchAndStep_tooLong hs hl
  · exact fetchAndStep_ended hs hl hf
  · rw [← engineStep_withRun]
    exact fetchAndStep_fetched hs hl hf

/-- With another record of what was shown it does the same, and keeps that record. -/
theorem fetchAndStep_withFrames (m : OpcodeMap) (s : State) (frames : List (Vector Byte 4)) :
    fetchAndStep m (s.withFrames frames) = mapState (·.withFrames frames) (fetchAndStep m s) := by
  refine (fetchAndStep_withRun m s s.schedule frames).trans (mapState_congr fun u hu => ?_)
  obtain ⟨himage, hschedule, -⟩ := fetchAndStep_outside_core hu
  rw [← himage, ← hschedule]
  rfl

/-- Under another schedule it does the same, and leaves that schedule. -/
theorem fetchAndStep_withSchedule (m : OpcodeMap) (s : State) (schedule : HostSchedule) :
    fetchAndStep m (s.withSchedule schedule) = mapState (·.withSchedule schedule) (fetchAndStep m s) := by
  refine (fetchAndStep_withRun m s schedule s.frames).trans (mapState_congr fun u hu => ?_)
  obtain ⟨himage, -, hframes⟩ := fetchAndStep_outside_core hu
  rw [← himage, ← hframes]
  rfl

/-! ## What a turn shows -/

/-- A host action shows the same whatever was shown before. -/
theorem State.hostAct_shows (s : State) (a : HostAction) :
    ∃ shown, ∀ frames, (s.withFrames frames).hostAct a = (s.hostAct a).withFrames (frames ++ shown) := by
  cases a with
  | poll | reset => exact ⟨[], fun frames => by rw [List.append_nil]; rfl⟩
  | render => exact ⟨[s.dp], fun _ => rfl⟩

/-- So does any number of them, one after another. -/
theorem State.act_shows (s : State) (actions : List HostAction) :
    ∃ shown, ∀ frames, (s.withFrames frames).act actions = (s.act actions).withFrames (frames ++ shown) := by
  induction actions generalizing s with
  | nil => exact ⟨[], fun frames => by rw [List.append_nil]; rfl⟩
  | cons a actions ih =>
    obtain ⟨first, hfirst⟩ := State.hostAct_shows s a
    obtain ⟨later, hlater⟩ := ih (s.hostAct a)
    refine ⟨first ++ later, fun frames => ?_⟩
    calc (s.withFrames frames).act (a :: actions)
      _ = ((s.withFrames frames).hostAct a).act actions := rfl
      _ = (s.act (a :: actions)).withFrames (frames ++ (first ++ later)) := by
        rw [hfirst, hlater, List.append_assoc]
        rfl

/-- A step shows the same, and has the same outcome, whatever was shown before. -/
theorem stepWith_shows (m : OpcodeMap) (s : State) :
    ∃ shown, ∀ frames, stepWith m (s.withFrames frames) = mapState (·.withFrames (frames ++ shown)) (stepWith m s) := by
  obtain ⟨shown, hshown⟩ := State.act_shows { s with schedule := s.schedule.next.2 } s.comingTurn
  exact ⟨shown, fun frames => (congrArg (fetchAndStep m) (hshown frames)).trans (fetchAndStep_withFrames m s.hostTurn _)⟩

/-! ## The turns of a schedule -/

/-- The listed turns come first. -/
theorem HostSchedule.turn_listed (listed : List (List HostAction)) (tail : HostTail) (n : Nat) (h : n < listed.length) :
    HostSchedule.turn ⟨listed, tail⟩ n = listed[n] := by
  induction listed generalizing n with
  | nil => exact absurd h (Nat.not_lt_zero n)
  | cons actions later ih =>
    cases n with
    | zero => rfl
    | succ n => exact ih n (Nat.lt_of_succ_lt_succ h)

/-- After them come the tail's. -/
theorem HostSchedule.turn_tail (listed : List (List HostAction)) (tail : HostTail) (n : Nat) :
    HostSchedule.turn ⟨listed, tail⟩ (listed.length + n) = HostSchedule.turn ⟨[], tail⟩ n := by
  induction listed with
  | nil => rw [List.length_nil, Nat.zero_add]
  | cons actions later ih =>
    rw [List.length_cons, Nat.add_right_comm, HostSchedule.turn_succ]
    exact ih

/-- A repeating tail begins as if its turns were listed. -/
theorem HostSchedule.turn_repeating (turns : List (List HostAction)) (n : Nat) :
    HostSchedule.turn ⟨[], .repeating turns⟩ n = HostSchedule.turn ⟨turns, .repeating turns⟩ n := by
  cases turns with
  | nil => rfl
  | cons => cases n <;> rfl

/-- A repeating tail gives its turns over and over. -/
theorem HostSchedule.turn_repeating_mod (turns : List (List HostAction)) (n : Nat) (h : 0 < turns.length) :
    HostSchedule.turn ⟨[], .repeating turns⟩ n = turns[n % turns.length]'(Nat.mod_lt n h) := by
  induction n using Nat.strongRecOn with
  | ind n ih =>
    rw [HostSchedule.turn_repeating]
    rcases Nat.lt_or_ge n turns.length with hn | hn
    · rw [HostSchedule.turn_listed _ _ n hn]
      simp only [Nat.mod_eq_of_lt hn]
    · obtain ⟨k, rfl⟩ := Nat.exists_eq_add_of_le hn
      rw [HostSchedule.turn_tail, ih k (by omega)]
      simp only [Nat.add_mod_left]

/-- A tail that repeats nothing gives empty turns. -/
theorem HostSchedule.turn_silent (n : Nat) : HostSchedule.turn ⟨[], .repeating []⟩ n = [] := by
  induction n with
  | zero => rfl
  | succ n ih => exact ih

/-- A free tail gives the free turns one after another (log entry 15). -/
theorem HostSchedule.turn_free (k n : Nat) : HostSchedule.turn ⟨[], .free k⟩ n = freeHostTurn (k + n) := by
  induction n generalizing k with
  | zero => rfl
  | succ n ih =>
    rw [HostSchedule.turn_succ, HostSchedule.next_free, ih, Nat.add_right_comm, Nat.add_assoc]

/-! ## The machine under any schedule -/

/-- A step is the turn of the loop under the coming actions, and what schedule the core leaves has no part in it. -/
theorem turnWith_comingTurn (m : OpcodeMap) (s : State) (schedule : HostSchedule) :
    turnWith m s.comingTurn (s.withSchedule schedule) = mapState (·.withSchedule schedule) (stepWith m s) := by
  rw [stepWith, ← fetchAndStep_withSchedule, State.hostTurn_eq, turnWith, State.withSchedule_act]
  rfl

/-- A step moves on in the schedule by one turn. -/
theorem stepWith_schedule {m : OpcodeMap} {s t : State} (h : stepWith m s = .next t) : t.schedule = s.schedule.next.2 := by
  obtain ⟨-, hschedule, -⟩ := fetchAndStep_outside_core (.inl h)
  exact hschedule.trans (State.hostTurn_schedule s)

/-- The machine's steps from a state are the turns of a run under any function whose first turns are that state's. -/
theorem runWith_eq_runUnder (m : OpcodeMap) (schedule : HostSchedule) {sch : Nat → List HostAction} {k : Nat} {s : State}
    (h : ∀ n < k, s.schedule.turn n = sch n) :
    mapState (·.withSchedule schedule) (runWith m k s) = runUnder m sch k (s.withSchedule schedule) := by
  induction k generalizing sch s with
  | zero => rfl
  | succ k ih =>
    have hturn : turnWith m (sch 0) (s.withSchedule schedule) = mapState (·.withSchedule schedule) (stepWith m s) := by
      rw [← h 0 (Nat.succ_pos k)]
      exact turnWith_comingTurn m s schedule
    rw [runWith, runUnder, hturn]
    cases hstep : stepWith m s with
    | next t =>
      refine ih fun n hn => ?_
      rw [stepWith_schedule hstep, ← HostSchedule.turn_succ]
      exact h (n + 1) (Nat.succ_lt_succ hn)
    | fault | refused => rfl

/-- A run under the state's own schedule goes on from where its first turn leads. -/
theorem runWith_of_next {m : OpcodeMap} {s t : State} (h : stepWith m s = .next t) (k : Nat) :
    runWith m (k + 1) s = runWith m k t := by
  rw [runWith, h]

/-- It is refused where its first turn is. -/
theorem runWith_of_refused {m : OpcodeMap} {s : State} {r : Refusal} (h : stepWith m s = .refused r) (k : Nat) :
    runWith m (k + 1) s = .refused r := by
  rw [runWith, h]

/-- A core's run goes on from where its first step leads. -/
theorem Core.run_of_next {M : Host.Core} {s t : M.State} (h : M.step s = .next t) (k : Nat) : M.run (k + 1) s = M.run k t := by
  rw [Host.Core.run, h]

/-- It stops where its first step stops. -/
theorem Core.run_of_fault {M : Host.Core} {s : M.State} {r : M.Fault} (h : M.step s = .fault r) (k : Nat) :
    M.run (k + 1) s = .fault r := by
  rw [Host.Core.run, h]

/-- It is refused where its first step is. -/
theorem Core.run_of_refused {M : Host.Core} {s : M.State} {r : M.Refusal} (h : M.step s = .refused r) (k : Nat) :
    M.run (k + 1) s = .refused r := by
  rw [Host.Core.run, h]

/-- The host's run of the core is the machine's steps at REF_OPCODES. -/
theorem coreRun_eq_runWith (k : Nat) (s : State) : Host.Core.run Sys2Proof.core k s = runWith refOpcodes k s := by
  induction k generalizing s with
  | zero => rfl
  | succ k ih =>
    cases hstep : stepWith refOpcodes s with
    | next t => exact (Core.run_of_next hstep k).trans ((ih t).trans (runWith_of_next hstep k).symm)
    | fault r => exact (Core.run_of_fault hstep k).trans (runWith_of_fault hstep k).symm
    | refused r => exact (Core.run_of_refused hstep k).trans (runWith_of_refused hstep k).symm

/-! ## The obligations -/

/-- Settles O32: the host's turn keeps the invariant, and so does each of the three ways a turn of the loop can go on. -/
theorem stepKeepsStatusExplained : Obligations.StepKeepsStatusExplained :=
  ⟨fun _ _ _ h hx => stepWith_inv h (.inl hx), fun _ _ h hx => stepWith_inv h (.inl hx),
    fun _ _ r h hx => stepWith_inv h (.inr ⟨r, hx, rfl⟩)⟩

/-- Settles O25: the decoder looks at the opcode first, and a legal record's step is its instruction's. -/
theorem faultsExactlyWhenTheSpecSays : Obligations.FaultsExactlyWhenTheSpecSays := by
  refine fun m rec s hs => ⟨fun hop => engineStep_error s (decodeRecord_of_illegal hop), fun i hd hv => ?_, fun i hd hv => ?_⟩
  · exact (engineStep_ok s hd).trans (exec_of_hasInvalidAddress s hv)
  · obtain ⟨t, hx⟩ := exec_next i s
    exact ⟨t, (engineStep_ok s hd).trans hx, (exec_status_of_valid hv hx).trans hs⟩

/-- Settles O34: without a reset the host's turn leaves the status Faulted, and the loop stops there. -/
theorem faultIsFinalUntilReset : Obligations.FaultIsFinalUntilReset :=
  fun m _ _ hs hkeeps => fetchAndStep_of_faulted m ((State.hostTurn_status_of_keepsRun hkeeps).trans hs)

/-- Settles O40: polls and renders write no cell but the buttons. -/
theorem hostWritesNoRegisterButButtons : Obligations.HostWritesNoRegisterButButtons :=
  fun s hkeeps => ⟨fun _ h0 h1 => State.value_hostTurn_of_keepsRun hkeeps h0 h1, State.hostTurn_status_of_keepsRun hkeeps,
    State.hostTurn_image s⟩

/-- Settles O42: what a step shows is fixed before what was shown is looked at, so the state's own frames are one case of it. -/
theorem shownFramesDoNotInfluenceTheRun : Obligations.ShownFramesDoNotInfluenceTheRun := by
  intro m s
  obtain ⟨shown, hshown⟩ := stepWith_shows m s
  have hown : stepWith m s = mapState (·.withFrames (s.frames ++ shown)) (stepWith m s) := hshown s.frames
  refine ⟨shown, fun t ht => ?_, fun r hr => ?_, hshown⟩
  · rw [ht, mapState_next] at hown
    exact congrArg State.frames (Host.Outcome.next.inj hown)
  · rw [hr] at hown
    have hfinal := congrArg Fault.final (Host.Outcome.fault.inj hown)
    rw [Fault.final_mapFinal] at hfinal
    exact congrArg State.frames hfinal

/-- Settles O52: the listed turns, then the tail's. -/
theorem hostScheduleNeverRunsOut : Obligations.HostScheduleNeverRunsOut :=
  ⟨HostSchedule.turn_listed,
    fun listed turns n h => (HostSchedule.turn_tail listed _ n).trans (HostSchedule.turn_repeating_mod turns n h),
    fun listed n => (HostSchedule.turn_tail listed _ n).trans (HostSchedule.turn_silent n),
    fun listed k n => (HostSchedule.turn_tail listed _ n).trans (HostSchedule.turn_free k n)⟩

/-- Settles O53: a run depends on the turns it takes and not on where they stand; a list of the function's first turns has them. -/
theorem everyHostScheduleIsARunOfTheMachine : Obligations.EveryHostScheduleIsARunOfTheMachine := by
  refine ⟨fun m k s => runWith_eq_runUnder m s.schedule fun _ _ => rfl, fun m sch k tail s => ?_, coreRun_eq_runWith⟩
  refine runWith_eq_runUnder m s.schedule fun n hn => ?_
  rw [State.withSchedule_schedule, HostSchedule.turn_listed _ tail n (by simpa using hn), List.getElem_map, List.getElem_range]

/-- Settles O35: the port's value by the status, of which only Faulted has a code of its own. -/
theorem faultPortCodes : Obligations.FaultPortCodes := by
  refine fun s => ⟨State.faultOut_of_faulted, State.faultOut_of_faulted, State.faultOut_of_not_faulted, ?_⟩
  by_cases h : ∃ k, s.status = .faulted k
  · obtain ⟨k, hk⟩ := h
    exact State.faultOut_of_faulted hk ▸ faultCode_ne_three k
  · rw [State.faultOut_of_not_faulted (not_exists.mp h)]
    decide

/-- Settles O38: the two button writes of a poll, and its frame. -/
theorem pollWritesBothButtons : Obligations.PollWritesBothButtons := by
  refine fun s b0 b1 => ⟨_, rfl, ?_, ?_, fun _ h0 h1 => State.value_poll_of_ne s b0 b1 h0 h1, rfl, rfl, rfl, rfl⟩
  · simp [State.hostAct, pressByte]
  · simp [State.hostAct, pressByte]

/-- Settles O39: a render appends the `dp` port to what was shown. -/
theorem renderReadsDpOnly : Obligations.RenderReadsDpOnly := fun _ => rfl

end Sys2Proof.Proofs
end

section
/-! Proofs of the reset's obligations (70_reset_and_hazards.md): the state a reset leaves, at power-up and as an event, and that a DP value
overwritten before a render is not shown. -/

namespace Sys2Proof.Proofs

open Sys2Proof Sys2Proof.Machine

/-! ## The state a reset leaves -/

/-- Power-up is the reset event too: in the machine just reset, that event changes nothing (70_reset_and_hazards.md R110). -/
theorem State.resetCells_afterReset (regs : ResetRegs) (image : List Record) (schedule : HostSchedule) :
    (State.afterReset regs image schedule).resetCells regs = State.afterReset regs image schedule := rfl

/-- A core just reset runs, so its fault port is 0. -/
@[simp] theorem State.resetCells_faultOut (s : State) (regs : ResetRegs) : (s.resetCells regs).faultOut = 0 :=
  State.faultOut_of_not_faulted (by simp)

/-! ## What is shown -/

/-- Only a render shows anything (60_exceptions.md R106). -/
theorem State.hostAct_frames_of_ne_render (s : State) {a : HostAction} (h : a ≠ .render) : (s.hostAct a).frames = s.frames := by
  cases a with
  | poll b0 b1 => exact State.poll_frames s b0 b1
  | render => exact absurd rfl h
  | reset regs => exact State.resetCells_frames s regs

/-- A turn without a render shows nothing. -/
theorem State.hostTurn_frames_of_no_render {s : State} (h : HostAction.render ∉ s.comingTurn) : s.hostTurn.frames = s.frames :=
  State.hostTurn_induct_of_mem (P := fun u => u.frames = s.frames) (Q := fun a => a ≠ .render)
    (fun u _ ha hu => (State.hostAct_frames_of_ne_render u ha).trans hu) (fun _ _ hu => hu) rfl
    fun _ ha hrender => h (hrender ▸ ha)

/-- The state a step carries, next or final, then has what was shown before. -/
theorem stepWith_frames_of_no_render {m : OpcodeMap} {s u : State} (h : HostAction.render ∉ s.comingTurn)
    (hu : Carries (stepWith m s) u) : u.frames = s.frames := by
  obtain ⟨-, -, hframes⟩ := fetchAndStep_outside_core hu
  exact hframes.trans (State.hostTurn_frames_of_no_render h)

/-! ## The obligations -/

/-- Settles O41: neither the turn nor the core's step after it shows anything. -/
theorem nothingIsShownWithoutRender : Obligations.NothingIsShownWithoutRender :=
  fun _ _ h => ⟨fun _ ht => stepWith_frames_of_no_render h (.inl ht), fun r hr => stepWith_frames_of_no_render h (.inr ⟨r, hr, rfl⟩)⟩

/-- Settles O33: a reset core runs, and a running status needs no explanation. -/
theorem resetStateIsExplained : Obligations.ResetStateIsExplained :=
  fun m _ _ _ himage => ⟨himage, statusExplained_of_running m rfl⟩

/-- Settles O36: both states are left by a reset event, which writes every cell. -/
theorem resetSetsEveryCell : Obligations.ResetSetsEveryCell := by
  intro regs image schedule s t ht
  have hreset : ∃ u : State, t = u.resetCells regs := by
    rcases List.mem_cons.mp ht with rfl | hevent
    · exact ⟨_, (State.resetCells_afterReset regs image schedule).symm⟩
    · exact ⟨s, List.mem_singleton.mp hevent⟩
  obtain ⟨u, rfl⟩ := hreset
  exact ⟨rfl, State.resetCells_gp u regs, State.resetCells_bt u regs, State.resetCells_dp u regs, State.resetCells_cr u regs,
    State.resetCells_status u regs, State.resetCells_faultOut u regs⟩

end Sys2Proof.Proofs
end

section
/-! Proof of the obligation about the model's own reset state (the model's choices, log entries 2, 4 and 5). -/

namespace Sys2Proof.Proofs

open Sys2Proof Sys2Proof.Machine

/-- The reference RESET_REGS has 0 for every register of each kind, and PC starts at record 0 (70_reset_and_hazards.md R110). -/
theorem State.value_reset (c : Cell) : State.reset.value c = 0x00 := by
  cases c with
  | general i => exact Vector.getElem_replicate i.isLt
  | button i => exact Vector.getElem_replicate i.isLt
  | display i => exact Vector.getElem_replicate i.isLt
  | programCounter => rfl
  | conditionResult => rfl

/-! ## The obligation -/

/-- Settles O37: the zero of every cell, and the status, image and schedule that `State.afterReset` was given. -/
theorem resetStateTakesReferenceZero : Obligations.ResetStateTakesReferenceZero :=
  ⟨State.value_reset, rfl, rfl, rfl⟩

end Sys2Proof.Proofs
end
